-- ==== Sys2Proof/Word.lean ====
section
/-! DEFINITION. The engine's word types (00_scope.md R7): every value is unsigned, and bit 0 is its least
significant bit. -/

namespace Sys2Proof

/-- A `u8`: a byte of `CIN`, of `ROUT` or of a payload (R7). -/
abbrev Byte := BitVec 8

/-- A `u32`: a CRC value, a table word or a matrix row (R6, parameter `W`). -/
abbrev Word := BitVec 32

/-- A `u64`: `bytes_processed` and `len2` (R6, parameter `BPW`). -/
abbrev Count := BitVec 64

end Sys2Proof
end

