-- ==== Sys2Proof/Syntax.lean ====
section
/-! DEFINITION. The commands of the CRC32E command set, version 1 (30_encoding.md R74): one constructor per row of
spec/opcode_table.json. -/

namespace Sys2Proof

/-- The names of the four accumulator contexts (10_state.md R21). -/
inductive CtxId where
  | c0
  | c1
  | c2
  | c3
deriving DecidableEq, Repr

/-- A command with its operands and its payload, in the order of its fields (30_encoding.md R72, R74). The payload
is part of the command (R70); the length field is the payload's length (R77). -/
inductive Instr where
  /-- `TREAD k, n` (R105): read one table word. -/
  | tread (k : BitVec 4) (n : Byte)
  /-- `UPDB prev, data` (R118): stateless byte-wise update. -/
  | updb (prev : Word) (data : List Byte)
  /-- `UPDF prev, data` (R134): stateless bulk update. -/
  | updf (prev : Word) (data : List Byte)
  /-- `RESET c` (R150): put a context in the initial state. -/
  | reset (c : CtxId)
  /-- `SEED c, value` (R151): overwrite the running value. -/
  | seed (c : CtxId) (value : Word)
  /-- `APPEND c, data` (R152): hash more bytes into a context. -/
  | append (c : CtxId) (data : List Byte)
  /-- `CHECKSUM c` (R153): read the running value. -/
  | checksum (c : CtxId)
  /-- `COMBINE c, o` (R154): merge context `o` into context `c`. -/
  | combine (c o : CtxId)
  /-- `CMB crc1, crc2, len2` (R187): stateless combination. -/
  | cmb (crc1 crc2 : Word) (len2 : Count)
deriving DecidableEq, Repr

end Sys2Proof
end

