-- ==== Sys2Proof/Machine/Operands.lean ====
section
/-! DEFINITION. Operand forms: how bytes of `CIN` become operand values and how a result becomes bytes of `ROUT`.
There is one byte order and it is big-endian (20_memory.md R55; 30_encoding.md R73). -/

namespace Sys2Proof.Machine

/-- `be32(b)`: the u32 whose most significant byte is the first of `b` (00_scope.md R9; R73). -/
def be32 (b : List Byte) : Word :=
  b.foldl (fun v x => (v <<< 8) ||| x.setWidth 32) 0

/-- `be64(b)`: the u64 whose most significant byte is the first of `b` (R9, R73). -/
def be64 (b : List Byte) : Count :=
  b.foldl (fun v x => (v <<< 8) ||| x.setWidth 64) 0

/-- Byte `j` of a 32-bit value, `v[8j+7:8j]`; byte 0 is the least significant (00_scope.md R7). -/
def byteOf (v : Word) (j : Nat) : Byte :=
  v.extractLsb' (8 * j) 8

/-- The four bytes that `emit32(v)` appends, most significant first (R9). -/
def bytes32 (v : Word) : List Byte :=
  [byteOf v 3, byteOf v 2, byteOf v 1, byteOf v 0]

/-- A 64-bit operand as its eight bytes, most significant first (R73). -/
def bytes64 (v : Count) : List Byte :=
  bytes32 (v.extractLsb' 32 32) ++ bytes32 (v.extractLsb' 0 32)

/-- `take(n)` on a list of bytes that are there: the first `n` of them and the rest, in order, or nothing when fewer
than `n` are present (R9). -/
def takeBytes (n : Nat) (b : List Byte) : Option (List Byte × List Byte) :=
  if n ≤ b.length then some (b.take n, b.drop n) else none

/-- The context a 2-bit index selects (10_state.md R21). -/
def ctxOfIndex (x : BitVec 2) : CtxId :=
  if x = 0 then .c0 else if x = 1 then .c1 else if x = 2 then .c2 else .c3

/-- The 2-bit index of a context (R21). -/
def ctxIndex : CtxId → BitVec 2
  | .c0 => 0
  | .c1 => 1
  | .c2 => 2
  | .c3 => 3

end Sys2Proof.Machine
end

