-- ==== Sys2Proof/Config.lean ====
section
/-! DEFINITION. The parameters of the engine (00_scope.md R6). None of them is left open by the spec: the open
parameters of 92_eei_decisions.md (signalling, times, channel depths) are mentioned by no rule and by no definition
of this model, so this file holds no free value. -/

namespace Sys2Proof.Config

/-- `POLY`: the reflected CRC-32 generator constant (R6). -/
def poly : Word := 0xEDB88320

/-- `NTAB`: the number of lookup tables (R6). -/
def ntab : Nat := 16

/-- `GROUP`: the bytes consumed by one bulk step (R6). -/
def group : Nat := 16

/-- `UNROLL`: the bulk steps of one block (R6). -/
def unroll : Nat := 4

/-- `BLOCK`: the bytes of one bulk block, `GROUP` times `UNROLL` (R6). -/
def block : Nat := group * unroll

/-- `GF2_DIM`: the rows of an operator matrix (R6). -/
def gf2Dim : Nat := 32

/-- One more than the largest payload length of a command: `LENW = 32` (R6, decision D7). -/
def payloadBound : Nat := 2 ^ 32

/-- The largest value of `bytes_processed`, `2^64 - 1`: `BPW = 64` (R6). -/
def maxCount : Nat := 2 ^ 64 - 1

end Sys2Proof.Config
end

