-- ==== Sys2Proof/WellFormed.lean ====
section
/-! DEFINITION. Which commands have an encoding. Every value of every operand field is legal (30_encoding.md R73);
the one bound is on the payload, whose length must fit the 32-bit length field (R72, R77). -/

namespace Sys2Proof

/-- A payload that one command can carry: at most `2^32 - 1` bytes (R77). -/
def payloadFits (data : List Byte) : Bool :=
  decide (data.length < Config.payloadBound)

/-- The commands that have an encoding (R72, R73). -/
def Instr.wf : Instr → Bool
  | .tread _ _ => true
  | .updb _ data => payloadFits data
  | .updf _ data => payloadFits data
  | .reset _ => true
  | .seed _ _ => true
  | .append _ data => payloadFits data
  | .checksum _ => true
  | .combine _ _ => true
  | .cmb _ _ _ => true

end Sys2Proof
end

