-- ==== Sys2Proof/Decode.lean ====
section
/-! DEFINITION. The command encoding (spec/30_encoding.md): reading a command from the bytes at the head of the
stream, and writing a command as its bytes. Reading is total: a list of bytes is a whole command and what follows it,
or an illegal first byte, or the beginning of a command whose last byte is not there yet (R75, R76). -/

namespace Sys2Proof

open Machine

/-- The formats of R72. -/
inductive Format where
  | Z
  | T
  | V
  | A
  | U
  | M
deriving DecidableEq, Repr

/-- The rows of the opcode map that have a mnemonic (R74). -/
inductive Opcode where
  | tread
  | updb
  | updf
  | reset
  | seed
  | append
  | checksum
  | combine
  | cmb
deriving DecidableEq, Repr

/-- The opcode map's rows, in its order (R74). -/
def opcodeRows : List Opcode :=
  [.tread, .updb, .updf, .reset, .seed, .append, .checksum, .combine, .cmb]

/-- The column `mask` of the opcode map (R74). -/
def opcodeMask : Opcode → Byte
  | .tread => 0xF0
  | .updb => 0xFF
  | .updf => 0xFF
  | .reset => 0xF3
  | .seed => 0xF3
  | .append => 0xF3
  | .checksum => 0xF3
  | .combine => 0xF0
  | .cmb => 0xFF

/-- The column `match` of the opcode map (R74). -/
def opcodeMatch : Opcode → Byte
  | .tread => 0x10
  | .updb => 0x20
  | .updf => 0x30
  | .reset => 0x40
  | .seed => 0x50
  | .append => 0x60
  | .checksum => 0x70
  | .combine => 0x80
  | .cmb => 0x90

/-- The column `format` of the opcode map (R74). -/
def opcodeFormat : Opcode → Format
  | .tread => .T
  | .updb => .U
  | .updf => .U
  | .reset => .Z
  | .seed => .V
  | .append => .A
  | .checksum => .Z
  | .combine => .Z
  | .cmb => .M

/-- A first byte selects a row when `b0 & mask = match` (R74). -/
def selectsOpcode (b0 : Byte) (op : Opcode) : Bool :=
  b0 &&& opcodeMask op == opcodeMatch op

/-- The row a first byte selects; none when it matches no row with a mnemonic (R74, R76). -/
def decodeFirst (b0 : Byte) : Option Opcode :=
  opcodeRows.find? (selectsOpcode b0)

/-- The field `k` of a first byte (R71). -/
def fieldK (b0 : Byte) : BitVec 4 := b0.extractLsb' 0 4

/-- The field `c` of a first byte (R71). -/
def fieldC (b0 : Byte) : CtxId := ctxOfIndex (b0.extractLsb' 2 2)

/-- The field `o` of a first byte (R71). -/
def fieldO (b0 : Byte) : CtxId := ctxOfIndex (b0.extractLsb' 0 2)

/-- The operand bytes of a format, not counting the first byte and the payload (R72). -/
def operandBytes : Format → Nat
  | .Z => 0
  | .T => 1
  | .V => 4
  | .A => 4
  | .U => 8
  | .M => 16

/-- What stands before the payload: the first byte, the row it selects, and the operand bytes (R70). -/
structure Header where
  op : Opcode
  b0 : Byte
  operands : List Byte
deriving DecidableEq, Repr

/-- The bytes a header takes (R72). -/
def Header.length (h : Header) : Nat := 1 + h.operands.length

/-- The payload length a header announces: its `len` field, or nothing for the commands without a payload
(R72, R75). -/
def Header.payloadLength (h : Header) : Nat :=
  match h.op with
  | .tread => 0
  | .updb => (be32 (h.operands.drop 4)).toNat
  | .updf => (be32 (h.operands.drop 4)).toNat
  | .reset => 0
  | .seed => 0
  | .append => (be32 h.operands).toNat
  | .checksum => 0
  | .combine => 0
  | .cmb => 0

/-- The command a header and its payload spell (R72, R74). -/
def Header.instr (h : Header) (data : List Byte) : Instr :=
  match h.op with
  | .tread => .tread (fieldK h.b0) (h.operands.headD 0)
  | .updb => .updb (be32 (h.operands.take 4)) data
  | .updf => .updf (be32 (h.operands.take 4)) data
  | .reset => .reset (fieldC h.b0)
  | .seed => .seed (fieldC h.b0) (be32 h.operands)
  | .append => .append (fieldC h.b0) data
  | .checksum => .checksum (fieldC h.b0)
  | .combine => .combine (fieldC h.b0) (fieldO h.b0)
  | .cmb => .cmb (be32 (h.operands.take 4)) (be32 ((h.operands.drop 4).take 4)) (be64 (h.operands.drop 8))

/-- What the bytes at the head of the stream begin with. -/
inductive HeaderRead where
  /-- The header's last byte is not there yet (or no byte is). -/
  | incomplete
  /-- The first byte matches no command (R76). -/
  | illegal (b0 : Byte)
  /-- A whole header, and the bytes after it. -/
  | whole (h : Header) (rest : List Byte)
deriving DecidableEq, Repr

/-- Read the first byte, decide the command from it alone, then read its operand bytes (R70, R75). -/
def readHeader : List Byte → HeaderRead
  | [] => .incomplete
  | b0 :: rest =>
    match decodeFirst b0 with
    | none => .illegal b0
    | some op =>
      match takeBytes (operandBytes (opcodeFormat op)) rest with
      | none => .incomplete
      | some (operands, rest') => .whole ⟨op, b0, operands⟩ rest'

/-- What the bytes at the head of the stream are. -/
inductive Decoded where
  /-- The command's last byte is not there yet (R221 of 60_exceptions.md), or no byte is. -/
  | incomplete
  /-- The first byte is illegal (R76). -/
  | illegal (b0 : Byte)
  /-- A whole command, and the bytes after it. -/
  | complete (i : Instr) (rest : List Byte)
deriving DecidableEq, Repr

/-- Decoding, a total function of the bytes at the head of `CIN` (R75). -/
def decode (b : List Byte) : Decoded :=
  match readHeader b with
  | .incomplete => .incomplete
  | .illegal b0 => .illegal b0
  | .whole h rest =>
    match takeBytes h.payloadLength rest with
    | none => .incomplete
    | some (data, rest') => .complete (h.instr data) rest'

/-- The first byte of an accumulator command: its opcode's `match`, with `c` and `o` in their fields (R71). -/
def firstByteCO (op : Opcode) (c : BitVec 2) (o : BitVec 2) : Byte :=
  opcodeMatch op ||| (c.setWidth 8 <<< 2) ||| o.setWidth 8

/-- The first byte of a command (R71, R74). -/
def firstByte : Instr → Byte
  | .tread k _ => opcodeMatch .tread ||| k.setWidth 8
  | .updb _ _ => opcodeMatch .updb
  | .updf _ _ => opcodeMatch .updf
  | .reset c => firstByteCO .reset (ctxIndex c) 0
  | .seed c _ => firstByteCO .seed (ctxIndex c) 0
  | .append c _ => firstByteCO .append (ctxIndex c) 0
  | .checksum c => firstByteCO .checksum (ctxIndex c) 0
  | .combine c o => firstByteCO .combine (ctxIndex c) (ctxIndex o)
  | .cmb _ _ _ => opcodeMatch .cmb

/-- The length field of a payload, 32 bits big-endian (R72, R77). -/
def lengthField (data : List Byte) : List Byte :=
  bytes32 (BitVec.ofNat 32 data.length)

/-- The bytes between a command's first byte and its payload (R72). -/
def operandFields : Instr → List Byte
  | .tread _ n => [n]
  | .updb prev data => bytes32 prev ++ lengthField data
  | .updf prev data => bytes32 prev ++ lengthField data
  | .reset _ => []
  | .seed _ value => bytes32 value
  | .append _ data => lengthField data
  | .checksum _ => []
  | .combine _ _ => []
  | .cmb crc1 crc2 len2 => bytes32 crc1 ++ bytes32 crc2 ++ bytes64 len2

/-- A command's payload (R70, R72). -/
def payload : Instr → List Byte
  | .tread _ _ => []
  | .updb _ data => data
  | .updf _ data => data
  | .reset _ => []
  | .seed _ _ => []
  | .append _ data => data
  | .checksum _ => []
  | .combine _ _ => []
  | .cmb _ _ _ => []

/-- A command as the bytes the host writes to `CIN` (R70, R72). -/
def encode (i : Instr) : List Byte :=
  firstByte i :: (operandFields i ++ payload i)

/-- A program as the bytes the host writes to `CIN`: commands back to back with nothing between them (R70). -/
def encodeProgram (p : List Instr) : List Byte :=
  p.flatMap encode

/-- The bytes of a command before its payload: its total length where there is none (R72, R75). -/
def headerLength : Instr → Nat
  | .tread _ _ => 2
  | .updb _ _ => 9
  | .updf _ _ => 9
  | .reset _ => 1
  | .seed _ _ => 5
  | .append _ _ => 5
  | .checksum _ => 1
  | .combine _ _ => 1
  | .cmb _ _ _ => 17

/-- The length of a command in bytes (the column `total length` of R72). -/
def commandLength (i : Instr) : Nat :=
  headerLength i + (payload i).length

/-- `n` bytes of a number that has the first byte in its bits 7 to 0, the second in its bits 15 to 8, and so on. -/
def tableBytes : Nat → Nat → List Byte
  | 0, _ => []
  | n + 1, w => BitVec.ofNat 8 w :: tableBytes n (w / 256)

/-- The longest header of a command, in bytes: format M (R72). -/
def longestHeader : Nat := 17

/-- The bytes of the one command whose first `nbits` bits are `w`, numbered as spec/opcode_table.json numbers them,
every later bit 0: its header, and as many payload bytes as the header announces. Where the first byte is illegal,
the bytes as they are. -/
def tableLayout (nbits w : Nat) : List Byte :=
  let given := tableBytes ((nbits + 7) / 8) (w % 2 ^ nbits)
  let padded := given ++ List.replicate longestHeader 0
  match readHeader padded with
  | .incomplete => padded
  | .illegal _ => padded
  | .whole h _ =>
    (padded ++ List.replicate h.payloadLength 0).take (h.length + h.payloadLength)

/-- The command the decoder reads from an instruction whose bits are `w` (log entry 14). -/
def decodeTableWord (nbits w : Nat) : Option Instr :=
  match decode (tableLayout nbits w) with
  | .incomplete => none
  | .illegal _ => none
  | .complete i _ => some i

end Sys2Proof
end

