-- ==== Sys2Proof/Machine/State.lean ====
section
/-! DEFINITION. The state of one engine (spec/10_state.md R20 to R35), as plain data. The table store is the constant
`T` (R28, R104), the matrix scratch and the update scratch are local to the functions that use them (R29, R30), so
none of the three is a field. -/

namespace Sys2Proof.Machine

/-- One `ChecksumState`: a running checksum in finished form and a byte count (R21, R22, R23). -/
structure Context where
  /-- `running_value` (R22). -/
  rv : Word
  /-- `bytes_processed` (R23). -/
  bp : Count
deriving DecidableEq, Repr

/-- The four contexts (R21). -/
structure Contexts where
  c0 : Context
  c1 : Context
  c2 : Context
  c3 : Context
deriving DecidableEq, Repr

/-- The status register's fields (R27). `Status.word` puts them at their places. -/
structure Status where
  /-- `STATUS[0]`: 0 while the table generator is running, 1 when commands are accepted. -/
  ready : BitVec 1
  /-- `STATUS[2:1]`: 0 none, 1 `ILLEGAL_COMMAND`, 2 `LENGTH_OVERFLOW`, 3 never produced. -/
  faultCode : BitVec 2
  /-- `STATUS[10:3]`: the first byte of the faulting command, 0 while `fault_code = 0`. -/
  faultInfo : Byte
deriving DecidableEq, Repr

/-- The state of one engine. -/
structure State where
  /-- The accumulator contexts (R21). -/
  ctx : Contexts
  /-- The status register (R27). -/
  status : Status
  /-- `CIN`, first byte first (R31). -/
  cin : List Byte
  /-- `ROUT`, first byte first (R32). -/
  rout : List Byte
  /-- The bytes already taken from `CIN` for a command whose last byte has not arrived (60_exceptions.md R221);
  empty at a command boundary (70_reset_and_hazards.md R243). -/
  held : List Byte
  /-- The number of bytes taken from `CIN` since reset (R26; model only). -/
  pos : Nat
deriving DecidableEq, Repr

/-- The two fault causes of 60_exceptions.md R211, each with its `fault_info`. A command or the decoder raises one by
a NEXT state (R210). `step` answers the same cause as a fault when the engine already is in the fault state: it makes
no further step (R215; 93_implementation_defined.md U14). Safe: a run that reached the fault state is not continued,
so nothing is claimed of it as of a run that ended well (R243). -/
inductive Fault where
  /-- `ILLEGAL_COMMAND`: the first byte of a command is one of the 205 illegal values (R212). -/
  | illegalCommand (info : Byte)
  /-- `LENGTH_OVERFLOW`: the new `bytes_processed` would exceed `2^64 - 1` (R213). -/
  | lengthOverflow (info : Byte)
deriving DecidableEq, Repr

/-- What the model gives no meaning. -/
inductive Refusal where
  /-- An instruction without a meaning; raised by an arm of `exec` only. No arm raises it. Safe. -/
  | notModelled (mnemonic : String)
  /-- `STATUS` shows `fault_code = 3`, which no rule produces; raised by `step` (93_implementation_defined.md U10:
  "outside the model (`refuse`)"). Safe: no run reaches it. -/
  | reservedFaultCode
deriving DecidableEq, Repr

/-- The state `new()` gives a context (43_accumulator.md R150; 10_state.md R35). -/
def Context.initial : Context := ⟨0, 0⟩

/-- Every context in the state `new()` gives (R35). -/
def Contexts.initial : Contexts :=
  ⟨Context.initial, Context.initial, Context.initial, Context.initial⟩

/-- The state after hardware reset completes (R35). -/
def State.reset : State where
  ctx := Contexts.initial
  status := ⟨1, 0, 0⟩
  cin := []
  rout := []
  held := []
  pos := 0

end Sys2Proof.Machine
end

