-- ==== Sys2Proof/Machine/Flags.lean ====
section
/-! DEFINITION. What is computed for the status register, and the one test that can set it. The engine has no
condition codes and no flag set by arithmetic (spec/10_state.md R27). -/

namespace Sys2Proof.Machine

/-- The 2-bit code of a cause (60_exceptions.md R211). -/
def faultCodeOf : Fault → BitVec 2
  | .illegalCommand _ => 1
  | .lengthOverflow _ => 2

/-- The `fault_info` of a cause (R211). -/
def faultInfoOf : Fault → Byte
  | .illegalCommand info => info
  | .lengthOverflow info => info

/-- `raise F(info)` on the status register: the code and the info are written, nothing else (R210). -/
def Status.raised (f : Fault) (t : Status) : Status :=
  { t with faultCode := faultCodeOf f, faultInfo := faultInfoOf f }

/-- `STATUS` as the host reads it: `ready` in bit 0, `fault_code` in bits 2 to 1, `fault_info` in bits 10 to 3
(10_state.md R27). -/
def Status.word (t : Status) : BitVec 11 :=
  t.faultInfo ++ t.faultCode ++ t.ready

/-- What the status register lets the engine do. -/
inductive Phase where
  /-- The fault state: nothing, for ever (60_exceptions.md R215). -/
  | stopped (f : Fault)
  /-- `fault_code = 3`, never produced (R211). -/
  | reserved
  /-- Hardware reset is in progress: `ready` is 0 and no command is accepted (10_state.md R27). -/
  | generating
  /-- Commands are accepted. -/
  | running
deriving DecidableEq, Repr

/-- The phase a status register stands for (10_state.md R27; 60_exceptions.md R211, R215). -/
def Status.phase (t : Status) : Phase :=
  if t.faultCode = 1 then .stopped (.illegalCommand t.faultInfo)
  else if t.faultCode = 2 then .stopped (.lengthOverflow t.faultInfo)
  else if t.faultCode = 3 then .reserved
  else if t.ready = 0 then .generating
  else .running

/-- `bp + n` as an exact integer, when it does not exceed `2^64 - 1`; nothing when it does (60_exceptions.md R213;
00_scope.md R8). -/
def lengthSum (bp : Count) (n : Nat) : Option Count :=
  if bp.toNat + n ≤ Config.maxCount then some (BitVec.ofNat 64 (bp.toNat + n)) else none

end Sys2Proof.Machine
end

