-- ==== Sys2Proof/Machine/Ops.lean ====
section
/-! DEFINITION. The named operations over the state that the commands share: the stream of bytes, the contexts, the
response channel, entering the fault state, and completing hardware reset. -/

namespace Sys2Proof.Machine

/-- The bytes from the start of the current command on: those already taken for it, then those still in `CIN`
(60_exceptions.md R221). At a command boundary it is `CIN`. -/
def State.stream (s : State) : List Byte :=
  s.held ++ s.cin

/-- The first `n` bytes of the stream are consumed, and the engine is at a command boundary. `pos` counts a byte when
it leaves `CIN`, so the bytes already held are not counted again (10_state.md R26; 30_encoding.md R75). -/
def State.advance (n : Nat) (s : State) : State :=
  { s with held := [], cin := s.stream.drop n, pos := s.pos + (n - s.held.length) }

/-- A `take(n)` found fewer than `n` bytes: the engine holds what it has taken and waits (60_exceptions.md R221).
DEDUCED (log entry 5): it has taken every byte that was there. -/
def State.wait (s : State) : State :=
  { s with held := s.stream, cin := [], pos := s.pos + s.cin.length }

/-- `emit32(v)`: the four bytes of `v` at the tail of `ROUT`, most significant first (00_scope.md R9; 10_state.md
R32). -/
def State.emit32 (v : Word) (s : State) : State :=
  { s with rout := s.rout ++ bytes32 v }

/-- `raise F(info)` (60_exceptions.md R210): the status register's two fault fields, and nothing else. -/
def State.raise (f : Fault) (s : State) : State :=
  { s with status := s.status.raised f }

/-- The context a name selects (10_state.md R21). -/
def Contexts.get (x : Contexts) : CtxId → Context
  | .c0 => x.c0
  | .c1 => x.c1
  | .c2 => x.c2
  | .c3 => x.c3

/-- The bank with one context written (10_state.md R21, R25). -/
def Contexts.put (x : Contexts) (c : CtxId) (v : Context) : Contexts :=
  match c with
  | .c0 => { x with c0 := v }
  | .c1 => { x with c1 := v }
  | .c2 => { x with c2 := v }
  | .c3 => { x with c3 := v }

/-- A read of both fields of `ctx[c]` (00_scope.md R9). -/
def State.readCtx (s : State) (c : CtxId) : Context :=
  s.ctx.get c

/-- A write of both fields of `ctx[c]`, together (20_memory.md R60). -/
def State.writeCtx (c : CtxId) (v : Context) (s : State) : State :=
  { s with ctx := s.ctx.put c v }

/-- Steps (2) to (4) of hardware reset (70_reset_and_hazards.md R240): every context is put in the state `new()`
gives, the table generator writes the table store (a constant of this model, 40_table_generator.md R104), and `ready`
becomes 1. DESIGN CHOICE (log entry 9): the three are one step. -/
def State.finishReset (s : State) : State :=
  { s with ctx := Contexts.initial, status := { s.status with ready := 1 } }

end Sys2Proof.Machine
end

