-- ==== Sys2Proof/Machine/TableGenerator.lean ====
section
/-! DEFINITION. The table generator and the table read (spec/40_table_generator.md): the one-bit operator, the sixteen
tables as a constant of it, and TREAD. -/

namespace Sys2Proof.Machine

/-- `M(c)`: one zero data bit pushed through the raw CRC register (R100). -/
def M (c : Word) : Word :=
  (c >>> 1) ^^^ (if c.getLsbD 0 then Config.poly else 0)

/-- `M^j`: `M` applied `j` times (R100). -/
def Mpow : Nat → Word → Word
  | 0, c => c
  | j + 1, c => Mpow j (M c)

/-- Entry `n` of table 0: eight applications of `M` to `n` (R101). -/
def generatedZero (n : Byte) : Word :=
  Mpow 8 (n.setWidth 32)

/-- Entry `n` of table `k`: table 0 is R101's, and each later table is the one before it pushed through one more zero
byte with table 0 (R102). -/
def generated : Nat → Byte → Word
  | 0, n => generatedZero n
  | k + 1, n => (generated k n >>> 8) ^^^ generatedZero ((generated k n).setWidth 8)

/-- A read of the table store at a linear word index: table `a / 256`, entry `a % 256` (20_memory.md R51). Every
12-bit index is in range. -/
def tableStore (a : BitVec 12) : Word :=
  generated (a.extractLsb' 8 4).toNat (a.extractLsb' 0 8)

/-- The linear word index `256*k + n` of word `n` of table `k` (R51). -/
def tableIndex (k : BitVec 4) (n : Byte) : BitVec 12 := k ++ n

/-- `T[k][n]` (00_scope.md R9; 10_state.md R28): one read of the table store. -/
def T (k : BitVec 4) (n : Byte) : Word :=
  tableStore (tableIndex k n)

/-- `TREAD k, n` (R105): emit one table word. -/
def execTread (k : BitVec 4) (n : Byte) (s : State) : Host.Outcome State Fault Refusal :=
  .next ((s.advance 2).emit32 (T k n))

end Sys2Proof.Machine
end

