-- ==== Sys2Proof/Machine/Bytewise.lean ====
section
/-! DEFINITION. The byte-wise updater and UPDB (spec/41_bytewise_update.md). The raw CRC `crc` of the loop is the
accumulator `acc` of 10_state.md R30; it is local to `updateByte`. -/

namespace Sys2Proof.Machine

/-- `bstep(crc, b)`: the raw one-byte step, one read of table 0 (R115). -/
def bstep (crc : Word) (b : Byte) : Word :=
  T 0 ((crc ^^^ b.setWidth 32).setWidth 8) ^^^ (crc >>> 8)

/-- The byte-wise loop on the raw CRC, in increasing order of the bytes (R116). -/
def byteLoop (crc : Word) (d : List Byte) : Word :=
  d.foldl bstep crc

/-- `update_byte(prev, d)`: from and to finished checksums (R116). -/
def updateByte (prev : Word) (d : List Byte) : Word :=
  ~~~ byteLoop (~~~ prev) d

/-- `UPDB prev, data` (R118): emit `update_byte(prev, data)`. -/
def execUpdb (prev : Word) (data : List Byte) (s : State) : Host.Outcome State Fault Refusal :=
  .next ((s.advance (9 + data.length)).emit32 (updateByte prev data))

end Sys2Proof.Machine
end

