-- ==== Sys2Proof/Machine/Bulk.lean ====
section
/-! DEFINITION. The bulk (slice-by-16) updater and UPDF (spec/42_bulk_update.md). The raw CRC and the block's bytes are
the scratch `acc` and `blk` of 10_state.md R30; they are local to `updateFast`. -/

namespace Sys2Proof.Machine

/-- `x[j]`: the byte of lane `j`, with byte `j` of the raw CRC folded in for `j = 0, 1, 2, 3` (R130). -/
def laneByte (crc : Word) (j : Nat) (g : Byte) : Byte :=
  if j < 4 then g ^^^ byteOf crc j else g

/-- The XOR of the table words of the lanes from `j` on: lane `j` uses table `15 - j` (R130). -/
def lanesFrom (crc : Word) : Nat → List Byte → Word
  | _, [] => 0
  | j, g :: gs => T (BitVec.ofNat 4 (Config.ntab - 1 - j)) (laneByte crc j g) ^^^ lanesFrom crc (j + 1) gs

/-- `gstep(crc, g)`: the raw 16-byte step, used only on groups of exactly 16 bytes (R130). -/
def gstep (crc : Word) (g : List Byte) : Word :=
  lanesFrom crc 0 g

/-- `n` bulk steps over consecutive groups, and the bytes after them. -/
def groupLoop : Nat → Word → List Byte → Word × List Byte
  | 0, crc, d => (crc, d)
  | n + 1, crc, d => groupLoop n (gstep crc (d.take Config.group)) (d.drop Config.group)

/-- `n` blocks of four bulk steps each, and the bytes after them (R131). -/
def blockLoop : Nat → Word → List Byte → Word × List Byte
  | 0, crc, d => (crc, d)
  | n + 1, crc, d =>
    let (crc', d') := groupLoop Config.unroll crc d
    blockLoop n crc' d'

/-- `update_fast(prev, d)`: while a whole 64-byte block remains the bulk path takes it, `floor(len(d) / 64)` blocks in
all; the tail is handed to `update_byte` in finished form and its result is returned untouched (R131, R132). -/
def updateFast (prev : Word) (d : List Byte) : Word :=
  let (crc, tail) := blockLoop (d.length / Config.block) (~~~ prev) d
  updateByte (~~~ crc) tail

/-- `UPDF prev, data` (R134): emit `update_fast(prev, data)`. -/
def execUpdf (prev : Word) (data : List Byte) (s : State) : Host.Outcome State Fault Refusal :=
  .next ((s.advance (9 + data.length)).emit32 (updateFast prev data))

end Sys2Proof.Machine
end

