-- ==== Sys2Proof/Machine/Gf2Combine.lean ====
section
/-! DEFINITION. The GF(2) matrix-power engine and CMB (spec/44_gf2_combine.md). The two scratch banks are fields of a
record local to `combineCrc`, as 10_state.md R29 asks. -/

namespace Sys2Proof.Machine

/-- An operator matrix as its rows: row `i` is the image of the vector that has only bit `i` set (R180). The engine's
matrices have 32 rows. -/
abbrev Mat := List Word

/-- The XOR of the rows whose bit of `v` is set, the first row of the list standing for bit `i`. -/
def timesFrom : Nat → Mat → Word → Word
  | _, [], _ => 0
  | i, row :: rows, v => (if v.getLsbD i then row else 0) ^^^ timesFrom (i + 1) rows v

/-- `gf2_times(mat, v)`: for each set bit `i` of the vector, XOR in row `i` (R181). -/
def gf2Times (mat : Mat) (v : Word) : Word :=
  timesFrom 0 mat v

/-- `gf2_square(dst, src)`: row `n` of the destination is `gf2_times(src, src[n])` (R182). The answer is the
destination bank; the source is another bank and is not changed (70_reset_and_hazards.md R247). -/
def gf2Square (src : Mat) : Mat :=
  src.map (gf2Times src)

/-- Row `n` of the one-zero-bit operator (R183). -/
def m1Row : Nat → Word
  | 0 => Config.poly
  | n + 1 => BitVec.ofNat 32 (2 ^ n)

/-- `M1`: the one-zero-bit operator as a matrix (R183). -/
def M1 : Mat :=
  (List.range Config.gf2Dim).map m1Row

/-- The local state of one run of `combine_crc` (R184): the two banks, the vector `v`, what is left of the length `L`,
and two counters of the work done (R188), which no result depends on. -/
structure Gf2Unit where
  even : Mat
  odd : Mat
  v : Word
  left : Count
  squarings : Nat
  applications : Nat
deriving DecidableEq, Repr

/-- `gf2_square(EVEN, ODD)` (R184). -/
def Gf2Unit.squareEven (u : Gf2Unit) : Gf2Unit :=
  { u with even := gf2Square u.odd, squarings := u.squarings + 1 }

/-- `gf2_square(ODD, EVEN)` (R184). -/
def Gf2Unit.squareOdd (u : Gf2Unit) : Gf2Unit :=
  { u with odd := gf2Square u.even, squarings := u.squarings + 1 }

/-- An application point: the bank is applied to `v` when the lowest bit of what is left of the length is set, and
that bit is shifted out (R184). -/
def Gf2Unit.applyBit (bank : Mat) (u : Gf2Unit) : Gf2Unit :=
  if u.left.getLsbD 0 then
    { u with v := gf2Times bank u.v, left := u.left >>> 1, applications := u.applications + 1 }
  else
    { u with left := u.left >>> 1 }

/-- The first half of the loop body (R184). -/
def Gf2Unit.evenHalf (u : Gf2Unit) : Gf2Unit :=
  let w := u.squareEven
  w.applyBit w.even

/-- The second half of the loop body (R184). -/
def Gf2Unit.oddHalf (u : Gf2Unit) : Gf2Unit :=
  let w := u.squareOdd
  w.applyBit w.odd

/-- The loop of R184: at most `n` passes, left after a half that has consumed the whole length. -/
def Gf2Unit.loop : Nat → Gf2Unit → Gf2Unit
  | 0, u => u
  | n + 1, u =>
    let e := u.evenHalf
    if e.left = 0 then e
    else
      let o := e.oddHalf
      if o.left = 0 then o else Gf2Unit.loop n o

/-- What stands before the loop (R184): `ODD` is `M1`, and the operator is squared twice, to four zero bits. What the
banks held before is never read (10_state.md R29), so they start empty. -/
def Gf2Unit.start (crc1 : Word) (len2 : Count) : Gf2Unit :=
  Gf2Unit.squareOdd (Gf2Unit.squareEven ⟨[], M1, crc1, len2, 0, 0⟩)

/-- The whole procedure for a length that is not 0. A pass consumes two bits of the length, so 32 passes consume all
64 (R188). -/
def Gf2Unit.run (crc1 : Word) (len2 : Count) : Gf2Unit :=
  Gf2Unit.loop 32 (Gf2Unit.start crc1 len2)

/-- `combine_crc(crc1, crc2, len2)` (R184). A zero length answers `crc1`, and nothing is computed. -/
def combineCrc (crc1 crc2 : Word) (len2 : Count) : Word :=
  if len2 = 0 then crc1 else (Gf2Unit.run crc1 len2).v ^^^ crc2

/-- `CMB crc1, crc2, len2` (R187): emit `combine_crc(crc1, crc2, len2)`. -/
def execCmb (crc1 crc2 : Word) (len2 : Count) (s : State) : Host.Outcome State Fault Refusal :=
  .next ((s.advance 17).emit32 (combineCrc crc1 crc2 len2))

end Sys2Proof.Machine
end

