-- ==== Sys2Proof/Machine/Accumulator.lean ====
section
/-! DEFINITION. The accumulator commands (spec/43_accumulator.md). -/

namespace Sys2Proof.Machine

/-- `RESET c` (R150): both fields of `ctx[c]` become 0. -/
def execReset (c : CtxId) (s : State) : Host.Outcome State Fault Refusal :=
  .next ((s.advance 1).writeCtx c Context.initial)

/-- `SEED c, value` (R151): `ctx[c].rv` is overwritten and `ctx[c].bp` is not written. -/
def execSeed (c : CtxId) (value : Word) (s : State) : Host.Outcome State Fault Refusal :=
  .next ((s.advance 5).writeCtx c { s.readCtx c with rv := value })

/-- `APPEND c, data` (R152): the length is tested before any payload byte is taken, so an overflow is raised with the
five header bytes consumed and the payload not (60_exceptions.md R213); otherwise both fields are written together. -/
def execAppend (c : CtxId) (data : List Byte) (s : State) : Host.Outcome State Fault Refusal :=
  match lengthSum (s.readCtx c).bp data.length with
  | none => .next ((s.advance 5).raise (.lengthOverflow (firstByte (.append c data))))
  | some bp =>
    .next ((s.advance (5 + data.length)).writeCtx c ⟨updateFast (s.readCtx c).rv data, bp⟩)

/-- `CHECKSUM c` (R153): emit `ctx[c].rv`. -/
def execChecksum (c : CtxId) (s : State) : Host.Outcome State Fault Refusal :=
  .next ((s.advance 1).emit32 (s.readCtx c).rv)

/-- `COMBINE c, o` (R154): both sources are read before anything is written, so `o = c` appends the stream to itself;
an overflow is raised with the context unchanged. -/
def execCombine (c o : CtxId) (s : State) : Host.Outcome State Fault Refusal :=
  let x := s.readCtx c
  let y := s.readCtx o
  match lengthSum x.bp y.bp.toNat with
  | none => .next ((s.advance 1).raise (.lengthOverflow (firstByte (.combine c o))))
  | some bp => .next ((s.advance 1).writeCtx c ⟨combineCrc x.rv y.rv y.bp, bp⟩)

end Sys2Proof.Machine
end

