-- ==== Sys2Proof/Machine/Dispatch.lean ====
section
/-! DEFINITION. The meaning of each command (spec/30_encoding.md R74): one arm per row of the opcode map. -/

namespace Sys2Proof.Machine

/-- Execute a whole command whose bytes stand at the head of the stream. -/
def exec (i : Instr) (s : State) : Host.Outcome State Fault Refusal :=
  match i with
  | .tread k n => Sys2Proof.Machine.execTread k n s
  | .updb prev data => Sys2Proof.Machine.execUpdb prev data s
  | .updf prev data => Sys2Proof.Machine.execUpdf prev data s
  | .reset c => Sys2Proof.Machine.execReset c s
  | .seed c value => Sys2Proof.Machine.execSeed c value s
  | .append c data => Sys2Proof.Machine.execAppend c data s
  | .checksum c => Sys2Proof.Machine.execChecksum c s
  | .combine c o => Sys2Proof.Machine.execCombine c o s
  | .cmb crc1 crc2 len2 => Sys2Proof.Machine.execCmb crc1 crc2 len2 s

end Sys2Proof.Machine
end

