-- ==== Sys2Proof/Machine/Fetch.lean ====
section
/-! DEFINITION. What the engine does with the bytes at the head of the stream before a command is executed: it takes a
whole command, or raises a fault while reading one, or waits (spec/30_encoding.md R75; spec/60_exceptions.md R212,
R213, R221). -/

namespace Sys2Proof.Machine

/-- The fault an APPEND header raises as soon as its five bytes are there, before any payload byte is taken
(43_accumulator.md R152). -/
def headerFault (s : State) : Option Fault :=
  match readHeader s.stream with
  | .incomplete => none
  | .illegal _ => none
  | .whole h _ =>
    if h.op = .append ∧ lengthSum (s.readCtx (fieldC h.b0)).bp h.payloadLength = none then
      some (.lengthOverflow h.b0)
    else none

/-- The command's last byte is not in `CIN`: its header raises a fault, or the engine waits, or, when it holds nothing
and `CIN` is empty, it is idle and nothing changes (60_exceptions.md R213, R221, R224). -/
def stepPartial (s : State) : State :=
  match headerFault s with
  | some f => (s.advance 5).raise f
  | none => s.wait

/-- An illegal first byte: it is consumed, nothing after it is, and `fault_info` is that byte (60_exceptions.md
R212). -/
def stepIllegal (b0 : Byte) (s : State) : State :=
  (s.advance 1).raise (.illegalCommand b0)

/-- What reading the stream leads to. -/
inductive Fetched where
  /-- A whole command to execute. -/
  | command (i : Instr)
  /-- No command is executed; this is the state after. -/
  | without (t : State)
deriving DecidableEq, Repr

/-- Read the stream (30_encoding.md R75). -/
def fetch (s : State) : Fetched :=
  match decode s.stream with
  | .complete i _ => .command i
  | .illegal b0 => .without (stepIllegal b0 s)
  | .incomplete => .without (stepPartial s)

end Sys2Proof.Machine
end

