-- ==== Sys2Proof/Machine/Step.lean ====
section
/-! DEFINITION. One step of the engine, and where the host's check puts an instruction. -/

namespace Sys2Proof.Machine

/-- One step: in the fault state the engine makes none (spec/60_exceptions.md R215); while `ready` is 0 the reset
completes (spec/70_reset_and_hazards.md R240); otherwise the bytes at the head of the stream are one command, executed
whole, or a fault, or a wait (spec/30_encoding.md R75). -/
def step (s : State) : Host.Outcome State Fault Refusal :=
  match s.status.phase with
  | .stopped f => .fault f
  | .reserved => .refused .reservedFaultCode
  | .generating => .next s.finishReset
  | .running =>
    match fetch s with
    | .command i => exec i s
    | .without t => .next t

/-- The command whose bits are `w` stands at the head of the stream, whole and alone: it stands for the host's write
of that command to `CIN` (log entry 13). -/
def State.withFetchWord (s : State) (nbits w : Nat) : State :=
  { s with held := [], cin := tableLayout nbits w }

end Sys2Proof.Machine
end

