-- ==== Sys2Proof/Machine/Assembler.lean ====
section
/-! DEFINITION. The assembler's text and its two pseudo-instructions (spec/30_encoding.md R77, R78). It stands outside
the engine: it turns a program's text into the commands whose bytes the host writes, and no step depends on it. Text is
a list of characters. -/

namespace Sys2Proof.Machine

/-- `NEW c` is `RESET c` (R78). -/
def pseudoNew (c : CtxId) : Instr := .reset c

/-- `HASH data` is `UPDF 0x00000000, data` (R78). -/
def pseudoHash (data : List Byte) : Instr := .updf 0 data

/-- The words of a line of assembler text. -/
inductive Token where
  /-- A mnemonic, a context name, or the `x` of a repetition. -/
  | word (w : List Char)
  | number (n : Nat)
  /-- A double-quoted string, as its ASCII codes. -/
  | text (b : List Byte)
  | openBrace
  | closeBrace
  | comma
  | plusPlus
  | dotDot
deriving DecidableEq, Repr

/-- The value of a decimal or hexadecimal digit. DESIGN CHOICE (log entry 16): hexadecimal digits of either case. -/
def digitValue (c : Char) : Option Nat :=
  if '0' ≤ c ∧ c ≤ '9' then some (c.toNat - 48)
  else if 'A' ≤ c ∧ c ≤ 'F' then some (c.toNat - 55)
  else if 'a' ≤ c ∧ c ≤ 'f' then some (c.toNat - 87)
  else none

/-- The value of a run of digits in a base, its leading digits standing for `n`. -/
def digits (base : Nat) : Nat → List Char → Option Nat
  | n, [] => some n
  | n, c :: cs =>
    match digitValue c with
    | none => none
    | some v => if v < base then digits base (base * n + v) cs else none

/-- A number is decimal or `0x` hexadecimal (R77). -/
def numberOf : List Char → Option Nat
  | [] => none
  | [c] => digits 10 0 [c]
  | c :: d :: cs =>
    if c = '0' ∧ d = 'x' then (if cs.isEmpty then none else digits 16 0 cs)
    else digits 10 0 (c :: d :: cs)

/-- The characters of words and numbers. -/
def isAlphanumeric (c : Char) : Bool :=
  decide (('0' ≤ c ∧ c ≤ '9') ∨ ('A' ≤ c ∧ c ≤ 'Z') ∨ ('a' ≤ c ∧ c ≤ 'z'))

/-- The printable ASCII characters (R77); the double quote ends a string and does not stand in one. -/
def isPrintable (c : Char) : Bool :=
  decide (32 ≤ c.toNat ∧ c.toNat ≤ 126)

/-- A run of letters and digits is a number when it begins with a digit, and a word otherwise. -/
def runToken (run : List Char) : Option Token :=
  match run with
  | [] => none
  | c :: _ => if '0' ≤ c ∧ c ≤ '9' then (numberOf run).map .number else some (.word run)

/-- The words of a line; a semicolon starts a comment (R77). Nothing when a character fits nowhere. -/
def tokens : Nat → List Char → Option (List Token)
  | 0, _ => none
  | _ + 1, [] => some []
  | fuel + 1, c :: cs =>
    if c = ' ' ∨ c = '\t' then tokens fuel cs
    else if c = ';' then some []
    else if c = ',' then (tokens fuel cs).map (Token.comma :: ·)
    else if c = Char.ofNat 0x7B then (tokens fuel cs).map (Token.openBrace :: ·)
    else if c = Char.ofNat 0x7D then (tokens fuel cs).map (Token.closeBrace :: ·)
    else if c = '+' then
      match cs with
      | '+' :: rest => (tokens fuel rest).map (Token.plusPlus :: ·)
      | _ => none
    else if c = '.' then
      match cs with
      | '.' :: rest => (tokens fuel rest).map (Token.dotDot :: ·)
      | _ => none
    else if c = '"' then
      let inside := cs.takeWhile (· ≠ '"')
      let after := cs.dropWhile (· ≠ '"')
      match after with
      | [] => none
      | _ :: rest =>
        if inside.all isPrintable then
          (tokens fuel rest).map (Token.text (inside.map (fun x => BitVec.ofNat 8 x.toNat)) :: ·)
        else none
    else if isAlphanumeric c then
      let run := (c :: cs).takeWhile isAlphanumeric
      match runToken run, tokens fuel ((c :: cs).dropWhile isAlphanumeric) with
      | some t, some ts => some (t :: ts)
      | _, _ => none
    else none

/-- The byte values from the first to the last, in increasing order (R77). -/
def byteRange (first last : Nat) : List Byte :=
  (List.range (last + 1 - first)).map (fun i => BitVec.ofNat 8 (first + i))

/-- A byte value, when the number is one. -/
def byteValue (n : Nat) : Option Byte :=
  if n < 256 then some (BitVec.ofNat 8 n) else none

/-- A byte sequence and the words after it (R77): strings, repetitions, brace lists, ranges and the empty sequence,
joined by `++`, or inside braces by commas or by standing next to one another. `depth` counts the open braces, and
`fresh` says that an element must follow (after a comma or `++`, or at the start outside braces). -/
def byteSequence : Nat → Nat → Bool → List Token → Option (List Byte × List Token)
  | 0, _, _, _ => none
  | fuel + 1, depth, fresh, ts =>
    let more (b : List Byte) (depth' : Nat) (rest : List Token) : Option (List Byte × List Token) :=
      (byteSequence fuel depth' false rest).map (fun (b', r) => (b ++ b', r))
    let element : Bool := fresh || decide (0 < depth)
    match ts with
    | .plusPlus :: rest => if fresh then none else byteSequence fuel depth true rest
    | .comma :: rest =>
      if 0 < depth then (if fresh then none else byteSequence fuel depth true rest)
      else (if fresh then none else some ([], ts))
    | .openBrace :: .closeBrace :: rest => if element then more [] depth rest else none
    | .openBrace :: rest => if element then byteSequence fuel (depth + 1) true rest else none
    | .closeBrace :: rest =>
      if fresh ∨ depth = 0 then none else byteSequence fuel (depth - 1) false rest
    | .text b :: rest => if element then more b depth rest else none
    | .number n :: .word w :: .number v :: rest =>
      match byteValue v with
      | some x => if element ∧ w = "x".toList then more (List.replicate n x) depth rest else none
      | none => none
    | .number a :: .dotDot :: .number b :: rest =>
      if 0 < depth ∧ a ≤ b ∧ b < 256 then more (byteRange a b) depth rest else none
    | .number n :: rest =>
      match byteValue n with
      | some x => if 0 < depth then more [x] depth rest else none
      | none => none
    | [] => if fresh ∨ 0 < depth then none else some ([], [])
    | .word _ :: _ => none
    | .dotDot :: _ => none

/-- The last operand of a line is a byte sequence that one command can carry; a longer one must be split by the
programmer (R77). -/
def dataOperand (ts : List Token) : Option (List Byte) :=
  match byteSequence (2 * ts.length + 2) 0 true ts with
  | some (b, []) => if payloadFits b then some b else none
  | _ => none

/-- A context name, `c0` to `c3` (R77). -/
def ctxName (w : List Char) : Option CtxId :=
  if w = "c0".toList then some .c0
  else if w = "c1".toList then some .c1
  else if w = "c2".toList then some .c2
  else if w = "c3".toList then some .c3
  else none

/-- The commands and pseudo-instructions whose one operand is a context. -/
def contextCommand (m : List Char) (c : CtxId) : Option Instr :=
  if m = "RESET".toList then some (.reset c)
  else if m = "NEW".toList then some (pseudoNew c)
  else if m = "CHECKSUM".toList then some (.checksum c)
  else none

/-- A mnemonic and its operands, in the order of the fields of the encoding (R77). -/
def lineCommand (m : List Char) (operands : List Token) : Option Instr :=
  if m = "HASH".toList then (dataOperand operands).map pseudoHash
  else
    match operands with
    | [.word w] => (ctxName w).bind (contextCommand m)
    | [.word w, .comma, .word w'] =>
      match ctxName w, ctxName w' with
      | some c, some o => if m = "COMBINE".toList then some (.combine c o) else none
      | _, _ => none
    | [.number a, .comma, .number b, .comma, .number n] =>
      if m = "CMB".toList ∧ a < 2 ^ 32 ∧ b < 2 ^ 32 ∧ n < 2 ^ 64 then
        some (.cmb (BitVec.ofNat 32 a) (BitVec.ofNat 32 b) (BitVec.ofNat 64 n))
      else none
    | .word w :: .comma :: rest =>
      if m = "APPEND".toList then
        match ctxName w, dataOperand rest with
        | some c, some d => some (.append c d)
        | _, _ => none
      else if m = "SEED".toList then
        match ctxName w, rest with
        | some c, [.number v] => if v < 2 ^ 32 then some (.seed c (BitVec.ofNat 32 v)) else none
        | _, _ => none
      else none
    | .number a :: .comma :: rest =>
      if m = "TREAD".toList then
        match rest with
        | [.number n] =>
          if a < 16 ∧ n < 256 then some (.tread (BitVec.ofNat 4 a) (BitVec.ofNat 8 n)) else none
        | _ => none
      else if m = "UPDB".toList ∧ a < 2 ^ 32 then
        (dataOperand rest).map (.updb (BitVec.ofNat 32 a))
      else if m = "UPDF".toList ∧ a < 2 ^ 32 then
        (dataOperand rest).map (.updf (BitVec.ofNat 32 a))
      else none
    | _ => none

/-- One line of text: one command, or none where the line is blank or only a comment (R77). Nothing when the line
spells no command. -/
def assembleLine (line : List Char) : Option (List Instr) :=
  match tokens (line.length + 1) line with
  | some [] => some []
  | some (.word m :: operands) => (lineCommand m operands).map (fun i => [i])
  | _ => none

/-- The lines of a text, its characters so far in reverse. -/
def splitLines : List Char → List Char → List (List Char)
  | acc, [] => [acc.reverse]
  | acc, c :: cs => if c = '\n' then acc.reverse :: splitLines [] cs else splitLines (c :: acc) cs

/-- A program's text as the commands it spells, one a line (R77). -/
def assemble (text : List Char) : Option (List Instr) :=
  ((splitLines [] text).mapM assembleLine).map List.flatten

end Sys2Proof.Machine
end

