-- ==== Sys2Proof/Machine/HostPort.lean ====
section
/-! DEFINITION. What the host can do to the engine (spec/70_reset_and_hazards.md R244): write `CIN`, read `ROUT`,
read `STATUS`, assert reset. Each may happen between any two steps. No step calls one of them. -/

namespace Sys2Proof.Machine

/-- The host appends bytes at the tail of `CIN` (10_state.md R31). -/
def State.hostWrite (b : List Byte) (s : State) : State :=
  { s with cin := s.cin ++ b }

/-- The host removes the first `n` bytes, or all there are, from the head of `ROUT` (10_state.md R32). -/
def State.hostRead (n : Nat) (s : State) : State :=
  { s with rout := s.rout.drop n }

/-- What the host reads as `STATUS` (10_state.md R27). -/
def State.statusWord (s : State) : BitVec 11 :=
  s.status.word

/-- The host asserts hardware reset: step (1) of R240. `STATUS` is cleared, both channels are emptied and a command
in progress is abandoned without effect. The step after it completes the reset (`State.finishReset`). -/
def State.assertReset (s : State) : State :=
  { s with status := ⟨0, 0, 0⟩, cin := [], rout := [], held := [], pos := 0 }

end Sys2Proof.Machine
end

