-- ==== Sys2Proof/Safety.lean ====
section
/-! DEFINITION. What a run is and when it has ended well, the invariant of the engine, and the words in which claims
are stated. Nothing here is used by the machine. -/

namespace Sys2Proof.Machine

/-- The engine accepts commands: `ready` is 1 and it is not in the fault state (spec/10_state.md R27). -/
abbrev State.Running (s : State) : Prop :=
  s.status.ready = 1 ∧ s.status.faultCode = 0

/-- The part of "ended well" that is the engine's: `CIN` is empty, the engine is at a command boundary, and it is not
in the fault state (spec/70_reset_and_hazards.md R243). That the host will write no more is the host's part. -/
abbrev State.EndedWell (s : State) : Prop :=
  s.cin = [] ∧ s.held = [] ∧ s.status.faultCode = 0

/-- The engine can only wait: the stream is the beginning of a command, and no header fault is due
(spec/60_exceptions.md R221). It holds of the empty stream too. -/
abbrev State.Starved (s : State) : Prop :=
  decode s.stream = .incomplete ∧ headerFault s = none

/-- From `s` to `t` the first `n` bytes of the stream are consumed and nothing is held (spec/30_encoding.md R75;
spec/10_state.md R26). The bytes held before were taken from `CIN` already, so `pos` advances by the others (log
entries 4 and 12). -/
abbrev Consumed (n : Nat) (s t : State) : Prop :=
  t.held = [] ∧ t.cin = s.stream.drop n ∧ t.pos = s.pos + (n - s.held.length)

/-- The four bytes of a response, most significant first (spec/00_scope.md R9, `emit32`). -/
def responseBytes (v : Word) : List Byte :=
  [v.extractLsb' 24 8, v.extractLsb' 16 8, v.extractLsb' 8 8, v.extractLsb' 0 8]

/-- From `s` to `t` one response is appended to `ROUT`, and no context and no field of `STATUS` changes. -/
abbrev Responded (v : Word) (s t : State) : Prop :=
  t.rout = s.rout ++ responseBytes v ∧ t.ctx = s.ctx ∧ t.status = s.status

/-- From `s` to `t` context `c` becomes `v`, no other context changes, and neither `ROUT` nor `STATUS` does. -/
abbrev ContextBecame (c : CtxId) (v : Context) (s t : State) : Prop :=
  t.readCtx c = v ∧ (∀ d, d ≠ c → t.readCtx d = s.readCtx d) ∧ t.rout = s.rout ∧ t.status = s.status

/-- From `s` to `t` a fault is entered: its code and its info are written and nothing else of the contexts, `ROUT` or
`STATUS` (spec/60_exceptions.md R210). -/
abbrev FaultEntered (code : BitVec 2) (info : Byte) (s t : State) : Prop :=
  t.status = ⟨s.status.ready, code, info⟩ ∧ t.ctx = s.ctx ∧ t.rout = s.rout

/-- A first byte that is illegal, in the words of spec/30_encoding.md R76. -/
abbrev IllegalFirst (b0 : Byte) : Prop :=
  (b0.toNat / 16 = 0x0 ∨ 0xA ≤ b0.toNat / 16) ∨
  ((b0.toNat / 16 = 0x2 ∨ b0.toNat / 16 = 0x3 ∨ b0.toNat / 16 = 0x9) ∧ b0.toNat % 16 ≠ 0) ∨
  ((0x4 ≤ b0.toNat / 16 ∧ b0.toNat / 16 ≤ 0x7) ∧ b0.toNat % 4 ≠ 0)

/-- The legal first bytes, as spec/30_encoding.md R74 lists them. -/
def legalFirstBytes : List Byte :=
  [0x10, 0x11, 0x12, 0x13, 0x14, 0x15, 0x16, 0x17, 0x18, 0x19, 0x1A, 0x1B, 0x1C, 0x1D, 0x1E, 0x1F,
   0x20, 0x30, 0x40, 0x44, 0x48, 0x4C, 0x50, 0x54, 0x58, 0x5C, 0x60, 0x64, 0x68, 0x6C, 0x70, 0x74, 0x78, 0x7C,
   0x80, 0x81, 0x82, 0x83, 0x84, 0x85, 0x86, 0x87, 0x88, 0x89, 0x8A, 0x8B, 0x8C, 0x8D, 0x8E, 0x8F, 0x90]

/-- The contexts a command names (spec/10_state.md R24). -/
def namesCtx (x : CtxId) : Instr → Prop
  | .tread _ _ => False
  | .updb _ _ => False
  | .updf _ _ => False
  | .reset c => x = c
  | .seed c _ => x = c
  | .append c _ => x = c
  | .checksum c => x = c
  | .combine c o => x = c ∨ x = o
  | .cmb _ _ _ => False

/-- The contexts a command writes (spec/10_state.md R24). -/
def writesCtx (x : CtxId) : Instr → Prop
  | .tread _ _ => False
  | .updb _ _ => False
  | .updf _ _ => False
  | .reset c => x = c
  | .seed c _ => x = c
  | .append c _ => x = c
  | .checksum _ => False
  | .combine c _ => x = c
  | .cmb _ _ _ => False

/-- The five commands that respond (spec/70_reset_and_hazards.md R251). -/
def responds : Instr → Bool
  | .tread _ _ => true
  | .updb _ _ => true
  | .updf _ _ => true
  | .reset _ => false
  | .seed _ _ => false
  | .append _ _ => false
  | .checksum _ => true
  | .combine _ _ => false
  | .cmb _ _ _ => true

/-- Commands executed one after another, stopping at the first that does not answer a next state. A command that
raises a fault answers a next state too; `runCommands` is used where none does. -/
def runCommands : List Instr → State → Host.Outcome State Fault Refusal
  | [], s => .next s
  | i :: is, s =>
    match exec i s with
    | .next t => runCommands is t
    | .fault f => .fault f
    | .refused r => .refused r

/-- One bit of standard CRC-32 in the form of polynomial division, most significant coefficient first: the register is
shifted left, and the generator is XORed in when the bit that leaves differs from the data bit. The generator is the
reflected constant read backwards. -/
def divideBit (reg : Word) (bit : Bool) : Word :=
  (reg <<< 1) ^^^ (if reg.msb ^^ bit then Config.poly.reverse else 0)

/-- The bits of a byte with bit 0 first: the reflected input (spec/20_memory.md R57). -/
def bitsOfByte (b : Byte) : List Bool :=
  (List.range 8).map (fun i => b.getLsbD i)

/-- Standard CRC-32 in the words of spec/41_bytewise_update.md R117 (c): "initial register all ones, final complement,
reflected input and output, generator `0xEDB88320`", by division bit by bit and without any table. -/
def standardCrc32 (d : List Byte) : Word :=
  ~~~ ((d.flatMap bitsOfByte).foldl divideBit 0xFFFFFFFF).reverse

/-- The number of set bits of a length. -/
def setBits (len2 : Count) : Nat :=
  (List.range 64).countP (fun i => len2.getLsbD i)

/-- The invariant of the engine. -/
structure State.Inv (s : State) : Prop where
  /-- `fault_code` is never 3 (spec/60_exceptions.md R211). -/
  code_legal : s.status.faultCode ≠ 3
  /-- `fault_info` is 0 while `fault_code` is 0 (spec/10_state.md R27). -/
  info_clear : s.status.faultCode = 0 → s.status.faultInfo = 0
  /-- No command is accepted while `ready` is 0, so nothing has faulted, responded or begun (R27). -/
  not_ready : s.status.ready = 0 → s.status.faultCode = 0 ∧ s.rout = [] ∧ s.held = []
  /-- A fault leaves the engine at the byte after those it consumed, holding nothing (R212, R213). -/
  fault_boundary : s.status.faultCode ≠ 0 → s.held = []
  /-- What is held is the beginning of one command, its last byte missing (R221). -/
  held_partial : s.held ≠ [] → decode s.held = .incomplete
  /-- A held header is not one that raises a fault (spec/43_accumulator.md R152). -/
  held_no_fault : headerFault { s with cin := [] } = none
  /-- What is held was taken from `CIN` since reset (R26). -/
  held_counted : s.held.length ≤ s.pos

end Sys2Proof.Machine
end

