-- ==== Sys2Proof/Certificates/Slice0/Obligations.lean ====
section
/-! DEFINITION. The statements about the model that the provers settle. Each docstring names the rule of spec/ it
formalises; a statement that rests on a choice of the model names its log entry. -/

open Sys2Proof Sys2Proof.Machine

/-! ### Encoding (30_encoding.md) -/

/-- Decoding the bytes of any command that has an encoding gives the command back, whatever follows it on `CIN`
(R70, R72, R73, R75). -/
def Obligations.DecodeOfEncodeIsTheCommand : Prop :=
  ∀ (i : Instr) (rest : List Byte), i.wf → decode (encode i ++ rest) = .complete i rest

/-- The other direction: bytes that decode to a command are that command's own bytes, so no two byte sequences spell
one command and nothing outside an encoding is read as one (R71, R72, R75). -/
def Obligations.DecodedBytesAreTheEncoding : Prop :=
  ∀ (b : List Byte) (i : Instr) (rest : List Byte), decode b = .complete i rest → i.wf ∧ b = encode i ++ rest

/-- The decoder answers `incomplete` exactly on the proper beginnings of the commands (R70, R75). This is about `decode`
alone: where the bytes are the whole header of an APPEND whose length does not fit, they are a proper beginning too, and
the engine does not wait for more but faults (43_accumulator.md R152; AppendOverflowStopsBeforeThePayload). -/
def Obligations.IncompleteBytesAreAProperBeginning : Prop :=
  ∀ b : List Byte, decode b = .incomplete ↔
    ∃ (i : Instr) (more : List Byte), i.wf ∧ more ≠ [] ∧ encode i = b ++ more

/-- The layouts of R72, byte by byte from the first byte on: every operand field big-endian at its offset, and the payload
after the header. -/
def Obligations.EncodedCommandsHaveTheLayoutsOfTheSpec : Prop :=
  (∀ (c : CtxId), encode (.reset c) = [0x40 ||| ((ctxIndex c).setWidth 8 <<< 2)]) ∧
  (∀ (c : CtxId), encode (.checksum c) = [0x70 ||| ((ctxIndex c).setWidth 8 <<< 2)]) ∧
  (∀ (c o : CtxId), encode (.combine c o) =
    [0x80 ||| ((ctxIndex c).setWidth 8 <<< 2) ||| (ctxIndex o).setWidth 8]) ∧
  (∀ (k : BitVec 4) (n : Byte), encode (.tread k n) = [0x10 ||| k.setWidth 8, n]) ∧
  (∀ (c : CtxId) (value : Word),
    encode (.seed c value) = (0x50 ||| ((ctxIndex c).setWidth 8 <<< 2)) :: responseBytes value) ∧
  (∀ (c : CtxId) (data : List Byte), encode (.append c data) =
    (0x60 ||| ((ctxIndex c).setWidth 8 <<< 2)) :: (responseBytes (BitVec.ofNat 32 data.length) ++ data)) ∧
  (∀ (prev : Word) (data : List Byte), encode (.updb prev data) =
    0x20 :: (responseBytes prev ++ responseBytes (BitVec.ofNat 32 data.length) ++ data)) ∧
  (∀ (prev : Word) (data : List Byte), encode (.updf prev data) =
    0x30 :: (responseBytes prev ++ responseBytes (BitVec.ofNat 32 data.length) ++ data)) ∧
  (∀ (crc1 crc2 : Word) (len2 : Count), encode (.cmb crc1 crc2 len2) =
    0x90 :: (responseBytes crc1 ++ responseBytes crc2 ++ responseBytes (len2.extractLsb' 32 32) ++
      responseBytes (len2.extractLsb' 0 32)))

/-- Words written out from the encoding tables of R72 and R74, one of each command, decode to the commands they stand
for. -/
def Obligations.WrittenOutWordsDecode : Prop :=
  decode [0x1F, 0xFF] = .complete (.tread 15 0xFF) [] ∧
  decode [0x20, 0x12, 0x34, 0x56, 0x78, 0x00, 0x00, 0x00, 0x03, 0x61, 0x62, 0x63] =
    .complete (.updb 0x12345678 [0x61, 0x62, 0x63]) [] ∧
  decode [0x30, 0xE8, 0xB7, 0xBE, 0x43, 0x00, 0x00, 0x00, 0x01, 0x62] = .complete (.updf 0xE8B7BE43 [0x62]) [] ∧
  decode [0x4C] = .complete (.reset .c3) [] ∧
  decode [0x58, 0xA8, 0xA1, 0xAE, 0x0A] = .complete (.seed .c2 0xA8A1AE0A) [] ∧
  decode [0x64, 0x00, 0x00, 0x00, 0x02, 0x77, 0x6F, 0x70] = .complete (.append .c1 [0x77, 0x6F]) [0x70] ∧
  decode [0x78] = .complete (.checksum .c2) [] ∧
  decode [0x86, 0x70] = .complete (.combine .c1 .c2) [0x70] ∧
  decode [0x90, 0x36, 0x10, 0xA6, 0x86, 0x4A, 0x3B, 0x42, 0xCB, 0x01, 0x02, 0x03, 0x04, 0x05, 0x06, 0x07, 0x08] =
    .complete (.cmb 0x3610A686 0x4A3B42CB 0x0102030405060708) []

/-- The legal first bytes are exactly the 51 that R74 lists, the other 205 are those R76 describes, and no first byte
selects two rows of the opcode map. -/
def Obligations.LegalFirstBytesAreThe51Listed : Prop :=
  (∀ b0 : Byte, (decodeFirst b0).isSome ↔ b0 ∈ legalFirstBytes) ∧
  (∀ b0 : Byte, decodeFirst b0 = none ↔ IllegalFirst b0) ∧
  legalFirstBytes.length = 51 ∧ legalFirstBytes.Nodup ∧
  (∀ b0 : Byte, (opcodeRows.filter (selectsOpcode b0)).length ≤ 1)

/-! ### The table generator (40_table_generator.md) -/

/-- `M(c)` is the shift with the constant folded in, its images of the single bits are those of the matrix of MU, it is
linear, and it has the three example values (R100). -/
def Obligations.OneBitOperatorIsTheLinearShift : Prop :=
  (∀ c : Word, M c = (c >>> 1) ^^^ (if c.getLsbD 0 then 0xEDB88320 else 0)) ∧
  (∀ n : Nat, 1 ≤ n → n < 32 → M (BitVec.ofNat 32 (2 ^ n)) = BitVec.ofNat 32 (2 ^ (n - 1))) ∧
  (∀ a b : Word, M (a ^^^ b) = M a ^^^ M b) ∧ M 0 = 0 ∧
  (∀ c : Word, Mpow 0 c = c) ∧ (∀ (j : Nat) (c : Word), Mpow (j + 1) c = M (Mpow j c)) ∧
  M 0x00000001 = 0xEDB88320 ∧ M 0x80000000 = 0x40000000 ∧ M 0xFFFFFFFF = 0x92477CDF

/-- Table 0 is eight applications of the one-bit operator to the index (R101), and every later table is the previous
one pushed through one more zero byte (R102). -/
def Obligations.GeneratorFillsTheTables : Prop :=
  (∀ n : Byte, T 0 n = M (M (M (M (M (M (M (M (n.setWidth 32))))))))) ∧
  (∀ (k : Nat) (n : Byte), 1 ≤ k → k ≤ 15 →
    T (BitVec.ofNat 4 k) n =
      (T (BitVec.ofNat 4 (k - 1)) n >>> 8) ^^^ T 0 ((T (BitVec.ofNat 4 (k - 1)) n &&& 0xFF).setWidth 8))

/-- The closed form of the tables: `T[k][n] = M^(8(k+1))(n)`, `T[k][0] = 0`, each table is linear and is the XOR of its
basis entries (R103). -/
def Obligations.TablesHaveTheClosedForm : Prop :=
  (∀ (k : BitVec 4) (n : Byte), T k n = Mpow (8 * (k.toNat + 1)) (n.setWidth 32)) ∧
  (∀ k : BitVec 4, T k 0 = 0) ∧
  (∀ (k : BitVec 4) (a b : Byte), T k (a ^^^ b) = T k a ^^^ T k b) ∧
  (∀ (k : BitVec 4) (n : Byte), T k n =
    (List.range 8).foldl (fun x i => x ^^^ (if n.getLsbD i then T k (BitVec.ofNat 8 (2 ^ i)) else 0)) 0)

/-- `TREAD k, n` completes in every state: it consumes two bytes, emits `T[k][n]` big-endian and changes nothing else;
entry 0 of every table is 0, and the two examples have their values (R105). -/
def Obligations.TableReadEmitsTheWord : Prop :=
  (∀ (k : BitVec 4) (n : Byte) (s : State),
    ∃ t, exec (.tread k n) s = .next t ∧ Consumed 2 s t ∧ Responded (T k n) s t) ∧
  (∀ k : BitVec 4, T k 0 = 0) ∧ T 0 0x01 = 0x77073096 ∧ T 15 0xFF = 0x0D7139D7

/-! ### Byte-wise update (41_bytewise_update.md) -/

/-- `bstep` is one read of table 0 at `crc[7:0] ^ b`, XORed with `crc >> 8`; it equals eight one-bit steps on
`crc ^ b`, and a zero byte is eight zero bits (R115). -/
def Obligations.ByteStepIsEightBitSteps : Prop :=
  ∀ (crc : Word) (b : Byte),
    bstep crc b = T 0 (crc.extractLsb' 0 8 ^^^ b) ^^^ (crc >>> 8) ∧
    bstep crc b = Mpow 8 (crc ^^^ b.setWidth 32) ∧
    bstep crc 0 = Mpow 8 crc

/-- `update_byte`: complement, one `bstep` a byte in increasing order, complement (R116); so empty input is the
identity, calls chain, and byte order matters (R117 (a), (b), (d)); a raw register of 0 stays 0 on zero bytes (R118,
corner case). -/
def Obligations.ByteWiseUpdateChains : Prop :=
  (∀ (prev : Word) (d : List Byte), updateByte prev d = ~~~ (d.foldl bstep (~~~ prev))) ∧
  (∀ c : Word, updateByte c [] = c) ∧
  (∀ (c : Word) (x y : List Byte), updateByte (updateByte c x) y = updateByte c (x ++ y)) ∧
  (∃ (c : Word) (x y : List Byte), updateByte c (x ++ y) ≠ updateByte c (y ++ x)) ∧
  (∀ n : Nat, updateByte 0xFFFFFFFF (List.replicate n 0) = 0xFFFFFFFF)

/-- `update_byte(0, d)` is the standard CRC-32 of `d` (R117 (c)), where the standard value is the bit-by-bit polynomial
division of `standardCrc32`, with no table. That this division is what the spec calls standard CRC-32 is log entry 19
(DEDUCED). -/
def Obligations.ByteWiseUpdateIsStandardCrc32 : Prop :=
  ∀ d : List Byte, updateByte 0 d = standardCrc32 d

/-- `UPDB prev, data` completes in every state: it consumes `9 + len` bytes, emits `update_byte(prev, data)` and changes
nothing else; empty data returns `prev` (R118). -/
def Obligations.ByteWiseCommandEmitsTheUpdate : Prop :=
  ∀ (prev : Word) (data : List Byte) (s : State),
    (∃ t, exec (.updb prev data) s = .next t ∧ Consumed (9 + data.length) s t ∧
      Responded (updateByte prev data) s t) ∧
    updateByte prev [] = prev

/-! ### Bulk update (42_bulk_update.md) -/

/-- `gstep` is the XOR of sixteen table words, lane `j` on table `15 - j`, with all four bytes of the raw CRC folded
into lanes 0 to 3 (R130). -/
def Obligations.BulkStepReadsSixteenTables : Prop :=
  ∀ (crc : Word) (g0 g1 g2 g3 g4 g5 g6 g7 g8 g9 g10 g11 g12 g13 g14 g15 : Byte),
    gstep crc [g0, g1, g2, g3, g4, g5, g6, g7, g8, g9, g10, g11, g12, g13, g14, g15] =
      T 15 (g0 ^^^ crc.extractLsb' 0 8) ^^^ T 14 (g1 ^^^ crc.extractLsb' 8 8) ^^^
      T 13 (g2 ^^^ crc.extractLsb' 16 8) ^^^ T 12 (g3 ^^^ crc.extractLsb' 24 8) ^^^
      T 11 g4 ^^^ T 10 g5 ^^^ T 9 g6 ^^^ T 8 g7 ^^^ T 7 g8 ^^^ T 6 g9 ^^^ T 5 g10 ^^^ T 4 g11 ^^^
      T 3 g12 ^^^ T 2 g13 ^^^ T 1 g14 ^^^ T 0 g15

/-- `gstep` equals sixteen byte steps, for every raw CRC and every 16-byte group (R136). -/
def Obligations.BulkStepIsSixteenByteSteps : Prop :=
  ∀ (crc : Word) (g : List Byte), g.length = 16 → gstep crc g = g.foldl bstep crc

/-- `update_fast` takes every whole block and hands over the tail: the bulk loop runs `floor(len(d) / 64)` times, leaves
the last `len(d) mod 64` bytes, and `update_byte` gets them with the complement of the raw CRC; below 64 bytes no block
is taken; one block is four bulk steps over its four groups in order. The last two clauses say the same of `update_fast`
by recursion: a payload of 0 to 63 bytes goes to `update_byte` as it is, and a longer one continues after its first block
(R131). -/
def Obligations.BulkPathTakesWholeBlocks : Prop :=
  (∀ (prev : Word) (d : List Byte), updateFast prev d =
    updateByte (~~~ (blockLoop (d.length / Config.block) (~~~ prev) d).1)
      (blockLoop (d.length / Config.block) (~~~ prev) d).2) ∧
  (∀ (crc : Word) (d : List Byte),
    (blockLoop (d.length / Config.block) crc d).2 = d.drop (64 * (d.length / 64)) ∧
    (blockLoop (d.length / Config.block) crc d).2.length = d.length % 64 ∧
    (d.length < 64 → blockLoop (d.length / Config.block) crc d = (crc, d))) ∧
  (∀ (n : Nat) (crc : Word) (g0 g1 g2 g3 rest : List Byte),
    g0.length = 16 → g1.length = 16 → g2.length = 16 → g3.length = 16 →
    blockLoop (n + 1) crc (g0 ++ g1 ++ g2 ++ g3 ++ rest) =
      blockLoop n (gstep (gstep (gstep (gstep crc g0) g1) g2) g3) rest) ∧
  (∀ (prev : Word) (d : List Byte), d.length < 64 → updateFast prev d = updateByte (~~~ (~~~ prev)) d) ∧
  (∀ (prev : Word) (g0 g1 g2 g3 rest : List Byte),
    g0.length = 16 → g1.length = 16 → g2.length = 16 → g3.length = 16 →
    updateFast prev (g0 ++ g1 ++ g2 ++ g3 ++ rest) =
      updateFast (~~~ gstep (gstep (gstep (gstep (~~~ prev) g0) g1) g2) g3) rest)

/-- The equivalence invariant: the bulk path equals the byte-wise path, at every split point, for every payload
(R133); so `update_fast` has the empty identity and chains with itself and with `update_byte` on either side. The last
clause is R117 (c) carried over to the bulk path; what standard CRC-32 is, is log entry 19 (DEDUCED). -/
def Obligations.BulkPathEqualsByteWisePath : Prop :=
  ∀ (c : Word) (d : List Byte),
    updateFast c d = updateByte c d ∧
    (∀ k : Nat, k ≤ d.length → updateFast c d = updateByte (updateFast c (d.take k)) (d.drop k)) ∧
    updateFast c [] = c ∧
    (∀ e : List Byte, updateFast (updateFast c d) e = updateFast c (d ++ e) ∧
      updateFast (updateByte c d) e = updateFast c (d ++ e) ∧
      updateByte (updateFast c d) e = updateFast c (d ++ e)) ∧
    updateFast 0 d = standardCrc32 d

/-- `UPDF prev, data` completes in every state: it consumes `9 + len` bytes, emits `update_fast(prev, data)`, which is
also what `UPDB prev, data` emits, and changes nothing else (R134). -/
def Obligations.BulkCommandEmitsTheUpdate : Prop :=
  ∀ (prev : Word) (data : List Byte) (s : State),
    (∃ t, exec (.updf prev data) s = .next t ∧ Consumed (9 + data.length) s t ∧
      Responded (updateFast prev data) s t) ∧
    exec (.updf prev data) s = exec (.updb prev data) s

/-! ### GF(2) combination (44_gf2_combine.md) -/

/-- `gf2_times` XORs in the row of every set bit of the vector; it is linear in the vector, maps 0 to 0, and answers row
`i` for the vector that has only bit `i` set (R181). -/
def Obligations.MatrixTimesVectorXorsTheRows : Prop :=
  ∀ mat : Mat, mat.length = 32 →
    (∀ v : Word, gf2Times mat v =
      (List.range 32).foldl (fun sum i => if v.getLsbD i then sum ^^^ mat.getD i 0 else sum) 0) ∧
    (∀ a b : Word, gf2Times mat (a ^^^ b) = gf2Times mat a ^^^ gf2Times mat b) ∧
    gf2Times mat 0 = 0 ∧
    (∀ i : Nat, i < 32 → gf2Times mat (BitVec.ofNat 32 (2 ^ i)) = mat.getD i 0)

/-- `gf2_square` fills row `n` with the source applied to its own row `n`; the result represents the source applied
twice; squaring into one bank leaves the other as it was (R182). -/
def Obligations.SquaredMatrixAppliesTwice : Prop :=
  (∀ src : Mat, src.length = 32 →
    (gf2Square src).length = 32 ∧
    (∀ n : Nat, n < 32 → (gf2Square src).getD n 0 = gf2Times src (src.getD n 0)) ∧
    (∀ v : Word, gf2Times (gf2Square src) v = gf2Times src (gf2Times src v))) ∧
  (∀ u : Gf2Unit, u.squareEven.even = gf2Square u.odd ∧ u.squareEven.odd = u.odd ∧
    u.squareOdd.odd = gf2Square u.even ∧ u.squareOdd.even = u.even)

/-- `M1` has the polynomial in row 0 and the value 1 shifted left by `n - 1` in row `n`, and as a matrix it is the
one-bit operator `M` (R183). -/
def Obligations.OneBitMatrixIsTheOneBitOperator : Prop :=
  M1.length = 32 ∧ M1.getD 0 0 = 0xEDB88320 ∧
  (∀ n : Nat, 1 ≤ n → n ≤ 31 → M1.getD n 0 = (1 : Word) <<< (n - 1)) ∧
  (∀ v : Word, gf2Times M1 v = M v)

/-- `combine_crc` pushes `len2` zero bytes through the first checksum and XORs in the second; with length 0 it answers
the first and ignores the second; it is linear in its first argument (R185). -/
def Obligations.CombineIsThePowerOfTheOneBitOperator : Prop :=
  ∀ (crc1 crc2 : Word) (len2 : Count),
    (len2 ≠ 0 → combineCrc crc1 crc2 len2 = Mpow (8 * len2.toNat) crc1 ^^^ crc2) ∧
    combineCrc crc1 crc2 0 = crc1 ∧
    (∀ crc1' : Word, combineCrc (crc1 ^^^ crc1') 0 len2 = combineCrc crc1 0 len2 ^^^ combineCrc crc1' 0 len2)

/-- The combination identity: from the checksums of `A` and of `B` computed as its own stream, and the length of `B`,
`combine_crc` gives the checksum of `A ++ B`, bit-exact, empty ranges included (R186). The length is a `u64`, so `B`
is shorter than `2^64` bytes. -/
def Obligations.CombineOfChecksumsIsTheChecksumOfBoth : Prop :=
  ∀ A B : List Byte, B.length < 2 ^ 64 →
    combineCrc (updateFast 0 A) (updateFast 0 B) (BitVec.ofNat 64 B.length) = updateFast 0 (A ++ B)

/-- The work of `combine_crc`: with `h` the highest set bit of the length, `h + 3` squarings, one application for every
set bit, the whole length consumed; at most 66 squarings, reached at every length from `2^63` on, and 64 applications
at `2^64 - 1` (R188). -/
def Obligations.CombineWorkIsBounded : Prop :=
  (∀ (crc1 : Word) (len2 : Count), len2 ≠ 0 →
    (Gf2Unit.run crc1 len2).squarings = Nat.log2 len2.toNat + 3 ∧
    (Gf2Unit.run crc1 len2).applications = setBits len2 ∧
    (Gf2Unit.run crc1 len2).left = 0 ∧
    (Gf2Unit.run crc1 len2).squarings ≤ 66 ∧
    (2 ^ 63 ≤ len2.toNat → (Gf2Unit.run crc1 len2).squarings = 66)) ∧
  (∀ crc1 : Word, (Gf2Unit.run crc1 0xFFFFFFFFFFFFFFFF).applications = 64)

/-- `CMB crc1, crc2, len2` completes in every state: it consumes 17 bytes, emits `combine_crc(crc1, crc2, len2)` and
changes nothing else. Corner cases: length 0 returns `crc1`; a first checksum of 0 gives the second when the length is
not 0; length 1 and a second of 0 give `T[0][crc1]` for `crc1 < 256` (R187, R250). -/
def Obligations.CombinationCommandEmitsTheChecksum : Prop :=
  (∀ (crc1 crc2 : Word) (len2 : Count) (s : State),
    ∃ t, exec (.cmb crc1 crc2 len2) s = .next t ∧ Consumed 17 s t ∧ Responded (combineCrc crc1 crc2 len2) s t) ∧
  (∀ crc1 crc2 : Word, combineCrc crc1 crc2 0 = crc1) ∧
  (∀ (crc2 : Word) (len2 : Count), len2 ≠ 0 → combineCrc 0 crc2 len2 = crc2) ∧
  (∀ n : Byte, combineCrc (n.setWidth 32) 0 1 = T 0 n)

/-! ### The accumulator commands (43_accumulator.md) -/

/-- `RESET c` completes in every state: it consumes one byte, `ctx[c]` becomes `(0, 0)`, and no other context, no
response byte and no field of `STATUS` changes (R150). -/
def Obligations.ResetCommandClearsItsContext : Prop :=
  ∀ (c : CtxId) (s : State),
    ∃ t, exec (.reset c) s = .next t ∧ Consumed 1 s t ∧ ContextBecame c ⟨0, 0⟩ s t

/-- `SEED c, value` completes in every state: it consumes five bytes, `ctx[c].rv` becomes `value`, `ctx[c].bp` keeps its
value, and nothing else changes (R151). -/
def Obligations.SeedCommandWritesTheRunningValue : Prop :=
  ∀ (c : CtxId) (value : Word) (s : State),
    ∃ t, exec (.seed c value) s = .next t ∧ Consumed 5 s t ∧ ContextBecame c ⟨value, (s.readCtx c).bp⟩ s t

/-- `APPEND c, data` completes in every state where the new length does not exceed `2^64 - 1`: it consumes `5 + len`
bytes, both fields of `ctx[c]` are written together, the count by the exact sum, and nothing else changes (R152). -/
def Obligations.AppendCommandHashesThePayload : Prop :=
  ∀ (c : CtxId) (data : List Byte) (s : State), (s.readCtx c).bp.toNat + data.length ≤ 2 ^ 64 - 1 →
    ∃ (t : State) (bp : Count), exec (.append c data) s = .next t ∧ Consumed (5 + data.length) s t ∧
      bp.toNat = (s.readCtx c).bp.toNat + data.length ∧
      ContextBecame c ⟨updateFast (s.readCtx c).rv data, bp⟩ s t

/-- `CHECKSUM c` completes in every state: it consumes one byte, emits `ctx[c].rv` and changes nothing else (R153). -/
def Obligations.ChecksumCommandEmitsTheRunningValue : Prop :=
  ∀ (c : CtxId) (s : State),
    ∃ t, exec (.checksum c) s = .next t ∧ Consumed 1 s t ∧ Responded (s.readCtx c).rv s t

/-- `COMBINE c, o` completes in every state where the sum of the counts does not exceed `2^64 - 1`: both sources are read
before the write (so `o = c` doubles the stream), it consumes one byte, both fields of `ctx[c]` are written together,
and nothing else changes (R154). -/
def Obligations.CombineCommandMergesTheContexts : Prop :=
  ∀ (c o : CtxId) (s : State), (s.readCtx c).bp.toNat + (s.readCtx o).bp.toNat ≤ 2 ^ 64 - 1 →
    ∃ (t : State) (bp : Count), exec (.combine c o) s = .next t ∧ Consumed 1 s t ∧
      bp.toNat = (s.readCtx c).bp.toNat + (s.readCtx o).bp.toNat ∧
      ContextBecame c ⟨combineCrc (s.readCtx c).rv (s.readCtx o).rv (s.readCtx o).bp, bp⟩ s t

/-- Corner cases (a), (b) and (c) of COMBINE: a second source that counts no bytes changes no context, whatever its
running value; into a context in the initial state it is a copy; a context combined with itself is the checksum of its
stream followed by itself (R154). -/
def Obligations.CombineCommandCornerCases : Prop :=
  ∀ (c o : CtxId) (s : State),
    ((s.readCtx o).bp = 0 → ∃ t, exec (.combine c o) s = .next t ∧ t.ctx = s.ctx) ∧
    (s.readCtx c = ⟨0, 0⟩ → (s.readCtx o).bp ≠ 0 →
      ∃ t, exec (.combine c o) s = .next t ∧ t.readCtx c = s.readCtx o) ∧
    (∀ A : List Byte, 2 * A.length < 2 ^ 64 → s.readCtx c = ⟨updateFast 0 A, BitVec.ofNat 64 A.length⟩ →
      ∃ t, exec (.combine c c) s = .next t ∧
        t.readCtx c = ⟨updateFast 0 (A ++ A), BitVec.ofNat 64 (2 * A.length)⟩)

/-- The meaning of `rv` and `bp`: a context that was reset and then received only APPENDs holds the standard CRC-32 of
the concatenation of the payloads and their total length. After a SEED in any state, whatever the context held, the
value continues from the seed, so it is the checksum of whatever stream the seed was the checksum of followed by the
payloads, and `bp` goes on from what it was (R157, R151). The one limit on the state is that the length fits its field,
since an APPEND past it raises a fault. What standard CRC-32 is, is log entry 19 (DEDUCED). -/
def Obligations.RunningValueIsTheChecksumOfTheAppends : Prop :=
  ∀ (c : CtxId) (v : Word) (xs : List (List Byte)) (s : State),
    (xs.flatten.length < 2 ^ 64 →
      ∃ t, runCommands (.reset c :: xs.map (.append c)) s = .next t ∧
        t.readCtx c = ⟨updateFast 0 xs.flatten, BitVec.ofNat 64 xs.flatten.length⟩ ∧
        updateFast 0 xs.flatten = standardCrc32 xs.flatten) ∧
    ((s.readCtx c).bp.toNat + xs.flatten.length < 2 ^ 64 →
      ∃ (t : State) (bp : Count), runCommands (.seed c v :: xs.map (.append c)) s = .next t ∧
        t.readCtx c = ⟨updateFast v xs.flatten, bp⟩ ∧
        bp.toNat = (s.readCtx c).bp.toNat + xs.flatten.length ∧
        (∀ y : List Byte, v = updateFast 0 y → (t.readCtx c).rv = updateFast 0 (y ++ xs.flatten)))

/-- Seed and chain equivalence: reset, seed with the checksum of a tag, append a payload and read the checksum; the
response is that of hashing `tag ++ payload` at once, and the count is the payload's length alone (R158, R161). -/
def Obligations.SeededStreamEqualsOneHash : Prop :=
  ∀ (c : CtxId) (tag data : List Byte) (s : State), data.length < 2 ^ 64 →
    ∃ t u, runCommands [.reset c, .seed c (updateFast 0 tag), .append c data, .checksum c] s = .next t ∧
      runCommands [pseudoHash (tag ++ data)] s = .next u ∧ t.rout = u.rout ∧
      u.rout = s.rout ++ responseBytes (updateFast 0 (tag ++ data)) ∧
      (t.readCtx c).bp = BitVec.ofNat 64 data.length

/-- Reset idempotence: whatever a context held, RESET leaves the whole state it would leave had the context held anything
else, so every later command does the same; the context is as after hardware reset; RESET twice is RESET once, but for
the byte it consumes (R159). -/
def Obligations.ResetForgetsWhatTheContextHeld : Prop :=
  (∀ (c : CtxId) (x : Context) (s : State), exec (.reset c) (s.writeCtx c x) = exec (.reset c) s) ∧
  (∀ (c : CtxId) (s : State), ∃ t u, runCommands [.reset c] s = .next t ∧ runCommands [.reset c, .reset c] s = .next u ∧
    t.readCtx c = State.reset.readCtx c ∧ u.ctx = t.ctx ∧ u.rout = t.rout ∧ u.status = t.status)

/-- The one-shot checksum: `HASH data` is `UPDF 0, data`, `NEW c` is `RESET c`, and `RESET c; APPEND c, data; CHECKSUM c`
gives the same response; of empty data it is 0 (R78, R156). -/
def Obligations.OneShotHashEqualsResetAppendChecksum : Prop :=
  (∀ data : List Byte, pseudoHash data = .updf 0 data) ∧ (∀ c : CtxId, pseudoNew c = .reset c) ∧
  updateFast 0 [] = 0 ∧
  (∀ (c : CtxId) (data : List Byte) (s : State), data.length < 2 ^ 64 →
    ∃ t u, exec (pseudoHash data) s = .next t ∧
      runCommands [pseudoNew c, .append c data, .checksum c] s = .next u ∧
      t.rout = s.rout ++ responseBytes (updateFast 0 data) ∧ u.rout = t.rout ∧ t.ctx = s.ctx)

/-- Splitting long data: two APPENDs of the parts leave the context one APPEND of the whole leaves; a UPDF of the second
part seeded with the response of a UPDF of the first emits what one UPDF of the whole emits (R79). -/
def Obligations.SplitDataGivesTheSameResult : Prop :=
  ∀ (x y : List Byte) (s : State),
    (∀ c : CtxId, (s.readCtx c).bp.toNat + (x ++ y).length < 2 ^ 64 →
      ∃ t u, runCommands [.append c x, .append c y] s = .next t ∧ runCommands [.append c (x ++ y)] s = .next u ∧
        t.ctx = u.ctx ∧ t.rout = u.rout ∧ t.status = u.status) ∧
    (∀ p : Word, updateFast (updateFast p x) y = updateFast p (x ++ y))

/-! ### Contexts (10_state.md) -/

/-- Contexts are independent: a command neither reads nor writes a context it does not name (R25). -/
def Obligations.CommandsTouchOnlyTheContextsTheyName : Prop :=
  ∀ (i : Instr) (x : CtxId) (v : Context) (s t : State), ¬ namesCtx x i → exec i s = .next t →
    exec i (s.writeCtx x v) = .next (t.writeCtx x v) ∧ t.readCtx x = s.readCtx x

/-- A command writes no context but its first operand, and only RESET, SEED, APPEND and COMBINE write it (R24, R25). -/
def Obligations.CommandsWriteOnlyTheirFirstContext : Prop :=
  ∀ (i : Instr) (x : CtxId) (s t : State), ¬ writesCtx x i → exec i s = .next t → t.readCtx x = s.readCtx x

/-- The meanings of two commands that name no context in common leave the same contexts in either order (R25, R162). It
is about the meanings, not about runs: where the first of the two raises a fault, the meaning of the second is applied to
the fault state all the same, because a meaning does not look at `STATUS` (log entry 10, DESIGN CHOICE). A step never
does that: in the fault state the engine starts no command (60_exceptions.md R215; FaultStateIsPermanentUntilReset), and
then the order does matter to the contexts a run ends with. -/
def Obligations.CommandsOnDifferentContextsCommute : Prop :=
  ∀ (i j : Instr) (s a b ab ba : State), (∀ x, ¬ (namesCtx x i ∧ namesCtx x j)) →
    exec i s = .next a → exec j a = .next ab → exec j s = .next b → exec i b = .next ba →
    ab.ctx = ba.ctx

/-- `bytes_processed` never falls, except by RESET of that context and by hardware reset (R23). -/
def Obligations.BytesProcessedNeverFalls : Prop :=
  ∀ (s t : State) (c : CtxId), s.Running → step s = .next t →
    (∀ rest, decode s.stream ≠ .complete (.reset c) rest) → (s.readCtx c).bp ≤ (t.readCtx c).bp

/-- `STATUS` as the host reads it: `ready` in bit 0, `fault_code` in bits 2 to 1, `fault_info` in bits 10 to 3 (R27). -/
def Obligations.StatusWordHasTheFieldsOfTheSpec : Prop :=
  ∀ s : State, s.statusWord.extractLsb' 0 1 = s.status.ready ∧ s.statusWord.extractLsb' 1 2 = s.status.faultCode ∧
    s.statusWord.extractLsb' 3 8 = s.status.faultInfo

/-- Only TREAD, UPDB, UPDF, CHECKSUM and CMB respond, each with exactly four bytes appended to `ROUT`; the other four
append nothing (R32; 70_reset_and_hazards.md R251). -/
def Obligations.FiveCommandsRespondWithFourBytes : Prop :=
  ∀ (i : Instr) (s t : State), exec i s = .next t →
    ∃ e : List Byte, t.rout = s.rout ++ e ∧ e.length = (if responds i then 4 else 0)

/-! ### Faults (60_exceptions.md) -/

/-- An illegal first byte, at a boundary of an engine that accepts commands: the byte is consumed and nothing after it,
`fault_code` becomes 1 and `fault_info` that byte, and no context and no response byte changes, whatever follows
(30_encoding.md R76; R212). -/
def Obligations.IllegalFirstByteStopsTheEngine : Prop :=
  ∀ (s : State) (b0 : Byte) (rest : List Byte), s.Running → s.held = [] → s.cin = b0 :: rest → IllegalFirst b0 →
    ∃ t, step s = .next t ∧ FaultEntered 1 b0 s t ∧ t.cin = rest ∧ t.held = [] ∧ t.pos = s.pos + 1

/-- An APPEND whose new length would exceed `2^64 - 1`: the fault is raised as soon as the five header bytes are there,
however many payload bytes have arrived; the header is consumed and no payload byte is, and the context keeps its value
(R213; 43_accumulator.md R152). `held` holds part of the header at most, as the invariant says. That `held` is a field,
that the test is made before the payload is there, and what `pos` counts are log entries 4, 8 and 12 (DEDUCED). -/
def Obligations.AppendOverflowStopsBeforeThePayload : Prop :=
  ∀ (s : State) (c : CtxId) (n : Word) (rest : List Byte), s.Running → s.held.length < 5 →
    s.stream = firstByte (.append c []) :: (responseBytes n ++ rest) →
    2 ^ 64 - 1 < (s.readCtx c).bp.toNat + n.toNat →
    ∃ t, step s = .next t ∧ FaultEntered 2 (firstByte (.append c [])) s t ∧ t.cin = rest ∧ t.held = [] ∧
      t.pos = s.pos + (5 - s.held.length)

/-- A COMBINE whose new length would exceed `2^64 - 1` raises the fault with its one byte consumed and the context
unchanged (R213; 43_accumulator.md R154). -/
def Obligations.CombineOverflowLeavesTheContext : Prop :=
  ∀ (s : State) (c o : CtxId), 2 ^ 64 - 1 < (s.readCtx c).bp.toNat + (s.readCtx o).bp.toNat →
    ∃ t, exec (.combine c o) s = .next t ∧ FaultEntered 2 (firstByte (.combine c o)) s t ∧ Consumed 1 s t

/-- The causes, when each arises and what `fault_info` holds: a step that enters the fault state does so with code 1 and
an illegal first byte, or with code 2, on an APPEND or a COMBINE whose new length would exceed `2^64 - 1`; the info is
the first byte of the command; nothing else is written (R210, R211). -/
def Obligations.FaultsHaveOnlyTheListedCauses : Prop :=
  ∀ s t : State, step s = .next t → t.status.faultCode ≠ 0 →
    ∃ (b0 : Byte) (rest : List Byte), s.stream = b0 :: rest ∧ FaultEntered t.status.faultCode b0 s t ∧
      ((t.status.faultCode = 1 ∧ IllegalFirst b0) ∨
       (t.status.faultCode = 2 ∧ decodeFirst b0 = some .append ∧
         ∃ h r, readHeader s.stream = .whole h r ∧ 2 ^ 64 - 1 < (s.readCtx (fieldC b0)).bp.toNat + h.payloadLength) ∨
       (t.status.faultCode = 2 ∧ decodeFirst b0 = some .combine ∧
         2 ^ 64 - 1 < (s.readCtx (fieldC b0)).bp.toNat + (s.readCtx (fieldO b0)).bp.toNat))

/-- The fault state is permanent: once a fault code is set, no step is made whatever the host writes to `CIN` or reads
from `ROUT`, and only hardware reset clears it (R215, R216; 10_state.md R27). That a step asked for there answers the
fault the engine is in is log entry 7 (DESIGN CHOICE), and that reset is complete after one step is log entry 9 (DESIGN
CHOICE). -/
def Obligations.FaultStateIsPermanentUntilReset : Prop :=
  ∀ (s : State) (f : Fault), s.status.faultCode = faultCodeOf f → s.status.faultInfo = faultInfoOf f →
    (∀ (b : List Byte) (n : Nat), step ((s.hostWrite b).hostRead n) = .fault f) ∧
    step s.assertReset = .next State.reset

/-- Nothing but a fault already entered stops the engine: with a legal fault code and no fault, every step answers a next
state, whatever the bytes are; no command and no data is refused. R211 lists the only causes of a fault; the rest is the
model's choice of what a step is: an idle or a starved step answers a next state (log entry 6), entering the fault state
is a next state (log entry 7), and with `ready` 0 the step completes reset (log entry 9; all three DESIGN CHOICE). -/
def Obligations.EngineAlwaysStepsWithoutFault : Prop :=
  ∀ s : State, s.status.faultCode = 0 → ∃ t, step s = .next t

/-! ### Steps, waiting and the channels -/

/-- A step runs the decoded command: in an engine that accepts commands, when the bytes at the head of the stream decode
to a command, the step is that command's meaning (30_encoding.md R75; 20_memory.md R62). -/
def Obligations.StepRunsTheDecodedCommand : Prop :=
  ∀ (s : State) (i : Instr) (rest : List Byte), s.Running → decode s.stream = .complete i rest → step s = exec i s

/-- A command that raises no fault is consumed whole: what is left in `CIN` is what followed it, nothing is held, and
`pos` has advanced by every byte that left `CIN` (30_encoding.md R75; 10_state.md R26). The invariant rules out states
that hold more than a beginning of a command. That the bytes of a command already taken are held in a field, and what
`pos` counts, are log entries 4 and 12 (DEDUCED). -/
def Obligations.CompletedCommandIsConsumedWhole : Prop :=
  ∀ (s t : State) (i : Instr) (rest : List Byte), s.Inv → s.Running → decode s.stream = .complete i rest →
    step s = .next t → t.status = s.status →
    t.held = [] ∧ t.cin = rest ∧ t.pos + rest.length = s.pos + s.cin.length

/-- Waiting: when the stream is only the beginning of a command, the step takes what is there and holds it, with no
visible effect, and the engine then waits for ever (60_exceptions.md R221). That everything there is taken is log entry 5
(DEDUCED), and that a further step then answers the same state is log entry 6 (DESIGN CHOICE). -/
def Obligations.WaitingHoldsTheBytesTaken : Prop :=
  ∀ s : State, s.Running → s.Starved →
    ∃ t, step s = .next t ∧ t.ctx = s.ctx ∧ t.status = s.status ∧ t.rout = s.rout ∧ t.held = s.stream ∧ t.cin = [] ∧
      step t = .next t

/-- A wait is invisible: the step made after the host's next bytes is the one the engine would have made had they been
there before the wait, so how the host splits its stream changes nothing (60_exceptions.md R221; 20_memory.md R60). That
a wait is a step, and that it takes every byte there is, are log entries 6 (DESIGN CHOICE) and 5 (DEDUCED). -/
def Obligations.SplittingTheInputChangesNothing : Prop :=
  ∀ (s t : State) (b : List Byte), s.Running → s.Starved → step s = .next t →
    step (t.hostWrite b) = step (s.hostWrite b)

/-- Bytes the host writes behind a command, or behind a byte that raises a fault, do not change what the step does and
are not lost: they are in `CIN` after it, in order (10_state.md R31; 20_memory.md R62). -/
def Obligations.LaterInputDoesNotChangeAStep : Prop :=
  ∀ (s t : State) (b : List Byte), s.Running → ¬ s.Starved → step s = .next t →
    step (s.hostWrite b) = .next (t.hostWrite b)

/-- What stands in `ROUT` changes nothing the engine computes, and a step appends nothing or four bytes at its tail
(10_state.md R32). -/
def Obligations.ResponseChannelIsWriteOnly : Prop :=
  ∀ s t : State, step s = .next t →
    ∃ e : List Byte, (e.length = 0 ∨ e.length = 4) ∧
      ∀ r : List Byte, step { s with rout := r } = .next { t with rout := r ++ e }

/-- An engine that has ended well is idle: a step changes nothing (60_exceptions.md R224; 70_reset_and_hazards.md R243).
That such a step answers the same state, not a stop, is log entry 6 (DESIGN CHOICE). -/
def Obligations.IdleEngineKeepsItsState : Prop :=
  ∀ s : State, s.status.ready = 1 → s.EndedWell → step s = .next s

/-! ### Reset (70_reset_and_hazards.md) -/

/-- The state after hardware reset: the contexts, `STATUS`, the two channels and `pos` have the values of 10_state.md R35.
That nothing is held is not in that rule: `held` is the model's field, empty by log entry 4 (DEDUCED from
70_reset_and_hazards.md R240 and 60_exceptions.md R221). -/
def Obligations.ResetStateHasTheValuesOfTheSpec : Prop :=
  (∀ c : CtxId, (State.reset.readCtx c).rv = 0 ∧ (State.reset.readCtx c).bp = 0) ∧
  State.reset.status.ready = 1 ∧ State.reset.status.faultCode = 0 ∧ State.reset.status.faultInfo = 0 ∧
  State.reset.cin = [] ∧ State.reset.rout = [] ∧ State.reset.held = [] ∧ State.reset.pos = 0

/-- Hardware reset from any state, the fault state and a command in progress included: while it runs `ready` is 0 and
the channels are empty; when it completes the state is that after reset, with the bytes the host wrote meanwhile in
`CIN`, neither lost nor executed early (R240). That the whole of it is one step is log entry 9 (DESIGN CHOICE), and that
an abandoned command is an empty `held` is log entry 4 (DEDUCED). -/
def Obligations.HardwareResetRestoresTheResetState : Prop :=
  ∀ (s : State) (b : List Byte),
    s.assertReset.status = ⟨0, 0, 0⟩ ∧ s.assertReset.cin = [] ∧ s.assertReset.rout = [] ∧ s.assertReset.held = [] ∧
    step (s.assertReset.hostWrite b) = .next (State.reset.hostWrite b)

/-! ### The invariant -/

/-- The invariant holds at reset, and the host's actions keep it. Its clauses on `held` and `pos` rest on log entries 4,
8 and 12 (DEDUCED), and the state while reset runs on log entry 9 (DESIGN CHOICE). -/
def Obligations.ResetAndHostActionsMeetTheInvariant : Prop :=
  State.reset.Inv ∧
  ∀ s : State, s.Inv → (∀ b : List Byte, (s.hostWrite b).Inv) ∧ (∀ n : Nat, (s.hostRead n).Inv) ∧ s.assertReset.Inv

/-- Every step keeps the invariant: `fault_code` is never 3, `fault_info` is 0 while there is no fault, nothing happens
before `ready`, and what is held is always the beginning of one command that has raised no fault (10_state.md R27;
60_exceptions.md R211, R215, R221). The clauses on `held` and `pos` rest on log entries 4, 8 and 12 (DEDUCED). -/
def Obligations.EveryStepKeepsTheInvariant : Prop :=
  ∀ s t : State, s.Inv → step s = .next t → t.Inv
end

