-- ==== Sys2Proof/Laws/State.lean ====
section
/-! SUPPORT. One lemma per field of State per update, so that no later proof unfolds a record update; then what each
update does to the two views of the state that the commands use, the stream and the contexts. -/

namespace Sys2Proof.Machine

variable (s : State)

/-! ### `State.advance` -/

@[simp] theorem State.advance_ctx (n : Nat) : (s.advance n).ctx = s.ctx := rfl
@[simp] theorem State.advance_status (n : Nat) : (s.advance n).status = s.status := rfl
@[simp] theorem State.advance_cin (n : Nat) : (s.advance n).cin = s.stream.drop n := rfl
@[simp] theorem State.advance_rout (n : Nat) : (s.advance n).rout = s.rout := rfl
@[simp] theorem State.advance_held (n : Nat) : (s.advance n).held = [] := rfl
@[simp] theorem State.advance_pos (n : Nat) : (s.advance n).pos = s.pos + (n - s.held.length) := rfl

/-! ### `State.wait` -/

@[simp] theorem State.wait_ctx : (s.wait).ctx = s.ctx := rfl
@[simp] theorem State.wait_status : (s.wait).status = s.status := rfl
@[simp] theorem State.wait_cin : (s.wait).cin = [] := rfl
@[simp] theorem State.wait_rout : (s.wait).rout = s.rout := rfl
@[simp] theorem State.wait_held : (s.wait).held = s.stream := rfl
@[simp] theorem State.wait_pos : (s.wait).pos = s.pos + s.cin.length := rfl

/-! ### `State.emit32` -/

@[simp] theorem State.emit32_ctx (v : Word) : (s.emit32 v).ctx = s.ctx := rfl
@[simp] theorem State.emit32_status (v : Word) : (s.emit32 v).status = s.status := rfl
@[simp] theorem State.emit32_cin (v : Word) : (s.emit32 v).cin = s.cin := rfl
@[simp] theorem State.emit32_rout (v : Word) : (s.emit32 v).rout = s.rout ++ bytes32 v := rfl
@[simp] theorem State.emit32_held (v : Word) : (s.emit32 v).held = s.held := rfl
@[simp] theorem State.emit32_pos (v : Word) : (s.emit32 v).pos = s.pos := rfl

/-! ### `State.raise` -/

@[simp] theorem State.raise_ctx (f : Fault) : (s.raise f).ctx = s.ctx := rfl
@[simp] theorem State.raise_status (f : Fault) : (s.raise f).status = s.status.raised f := rfl
@[simp] theorem State.raise_cin (f : Fault) : (s.raise f).cin = s.cin := rfl
@[simp] theorem State.raise_rout (f : Fault) : (s.raise f).rout = s.rout := rfl
@[simp] theorem State.raise_held (f : Fault) : (s.raise f).held = s.held := rfl
@[simp] theorem State.raise_pos (f : Fault) : (s.raise f).pos = s.pos := rfl

/-! ### `State.writeCtx` -/

@[simp] theorem State.writeCtx_ctx (c : CtxId) (x : Context) : (s.writeCtx c x).ctx = s.ctx.put c x := rfl
@[simp] theorem State.writeCtx_status (c : CtxId) (x : Context) : (s.writeCtx c x).status = s.status := rfl
@[simp] theorem State.writeCtx_cin (c : CtxId) (x : Context) : (s.writeCtx c x).cin = s.cin := rfl
@[simp] theorem State.writeCtx_rout (c : CtxId) (x : Context) : (s.writeCtx c x).rout = s.rout := rfl
@[simp] theorem State.writeCtx_held (c : CtxId) (x : Context) : (s.writeCtx c x).held = s.held := rfl
@[simp] theorem State.writeCtx_pos (c : CtxId) (x : Context) : (s.writeCtx c x).pos = s.pos := rfl

/-! ### `State.finishReset` -/

@[simp] theorem State.finishReset_ctx : (s.finishReset).ctx = Contexts.initial := rfl
@[simp] theorem State.finishReset_status : (s.finishReset).status = { s.status with ready := 1 } := rfl
@[simp] theorem State.finishReset_cin : (s.finishReset).cin = s.cin := rfl
@[simp] theorem State.finishReset_rout : (s.finishReset).rout = s.rout := rfl
@[simp] theorem State.finishReset_held : (s.finishReset).held = s.held := rfl
@[simp] theorem State.finishReset_pos : (s.finishReset).pos = s.pos := rfl

/-! ### `State.hostWrite` -/

@[simp] theorem State.hostWrite_ctx (b : List Byte) : (s.hostWrite b).ctx = s.ctx := rfl
@[simp] theorem State.hostWrite_status (b : List Byte) : (s.hostWrite b).status = s.status := rfl
@[simp] theorem State.hostWrite_cin (b : List Byte) : (s.hostWrite b).cin = s.cin ++ b := rfl
@[simp] theorem State.hostWrite_rout (b : List Byte) : (s.hostWrite b).rout = s.rout := rfl
@[simp] theorem State.hostWrite_held (b : List Byte) : (s.hostWrite b).held = s.held := rfl
@[simp] theorem State.hostWrite_pos (b : List Byte) : (s.hostWrite b).pos = s.pos := rfl

/-! ### `State.hostRead` -/

@[simp] theorem State.hostRead_ctx (n : Nat) : (s.hostRead n).ctx = s.ctx := rfl
@[simp] theorem State.hostRead_status (n : Nat) : (s.hostRead n).status = s.status := rfl
@[simp] theorem State.hostRead_cin (n : Nat) : (s.hostRead n).cin = s.cin := rfl
@[simp] theorem State.hostRead_rout (n : Nat) : (s.hostRead n).rout = s.rout.drop n := rfl
@[simp] theorem State.hostRead_held (n : Nat) : (s.hostRead n).held = s.held := rfl
@[simp] theorem State.hostRead_pos (n : Nat) : (s.hostRead n).pos = s.pos := rfl

/-! ### `State.assertReset` -/

@[simp] theorem State.assertReset_ctx : (s.assertReset).ctx = s.ctx := rfl
@[simp] theorem State.assertReset_status : (s.assertReset).status = ⟨0, 0, 0⟩ := rfl
@[simp] theorem State.assertReset_cin : (s.assertReset).cin = [] := rfl
@[simp] theorem State.assertReset_rout : (s.assertReset).rout = [] := rfl
@[simp] theorem State.assertReset_held : (s.assertReset).held = [] := rfl
@[simp] theorem State.assertReset_pos : (s.assertReset).pos = 0 := rfl

/-! ### The status register's fields under a raise -/

@[simp] theorem Status.raised_ready (f : Fault) (t : Status) : (t.raised f).ready = t.ready := rfl
@[simp] theorem Status.raised_faultCode (f : Fault) (t : Status) : (t.raised f).faultCode = faultCodeOf f := rfl
@[simp] theorem Status.raised_faultInfo (f : Fault) (t : Status) : (t.raised f).faultInfo = faultInfoOf f := rfl

/-! ### The bank -/

@[simp] theorem Contexts.get_put_self (x : Contexts) (c : CtxId) (v : Context) : (x.put c v).get c = v := by
  cases c <;> rfl

theorem Contexts.get_put_of_ne (x : Contexts) {c d : CtxId} (h : d ≠ c) (v : Context) :
    (x.put c v).get d = x.get d := by
  cases c <;> cases d <;> first | rfl | exact absurd rfl h

@[simp] theorem Contexts.put_put (x : Contexts) (c : CtxId) (v w : Context) : (x.put c v).put c w = x.put c w := by
  cases c <;> rfl

@[simp] theorem Contexts.put_get_self (x : Contexts) (c : CtxId) : x.put c (x.get c) = x := by
  cases c <;> rfl

theorem Contexts.put_comm (x : Contexts) {c d : CtxId} (h : c ≠ d) (v w : Context) :
    (x.put c v).put d w = (x.put d w).put c v := by
  cases c <;> cases d <;> first | rfl | exact absurd rfl h

@[simp] theorem Contexts.get_initial (c : CtxId) : Contexts.initial.get c = Context.initial := by
  cases c <;> rfl

/-- Two banks that agree on every context are the same. -/
theorem Contexts.ext_get {x y : Contexts} (h : ∀ c, x.get c = y.get c) : x = y := by
  cases x
  cases y
  simp only [Contexts.mk.injEq]
  exact ⟨h .c0, h .c1, h .c2, h .c3⟩

/-! ### `State.readCtx` after each update -/

@[simp] theorem State.advance_readCtx (n : Nat) (c : CtxId) : (s.advance n).readCtx c = s.readCtx c := rfl
@[simp] theorem State.wait_readCtx (c : CtxId) : s.wait.readCtx c = s.readCtx c := rfl
@[simp] theorem State.emit32_readCtx (v : Word) (c : CtxId) : (s.emit32 v).readCtx c = s.readCtx c := rfl
@[simp] theorem State.raise_readCtx (f : Fault) (c : CtxId) : (s.raise f).readCtx c = s.readCtx c := rfl
@[simp] theorem State.hostWrite_readCtx (b : List Byte) (c : CtxId) : (s.hostWrite b).readCtx c = s.readCtx c := rfl
@[simp] theorem State.hostRead_readCtx (n : Nat) (c : CtxId) : (s.hostRead n).readCtx c = s.readCtx c := rfl

@[simp] theorem State.finishReset_readCtx (c : CtxId) : s.finishReset.readCtx c = Context.initial :=
  Contexts.get_initial c

@[simp] theorem State.writeCtx_readCtx_self (c : CtxId) (v : Context) : (s.writeCtx c v).readCtx c = v :=
  Contexts.get_put_self _ _ _

theorem State.writeCtx_readCtx_of_ne {c d : CtxId} (h : d ≠ c) (v : Context) :
    (s.writeCtx c v).readCtx d = s.readCtx d :=
  Contexts.get_put_of_ne _ h _

/-! ### `State.stream` after each update -/

theorem State.stream_def : s.stream = s.held ++ s.cin := rfl

@[simp] theorem State.advance_stream (n : Nat) : (s.advance n).stream = s.stream.drop n := rfl
@[simp] theorem State.emit32_stream (v : Word) : (s.emit32 v).stream = s.stream := rfl
@[simp] theorem State.raise_stream (f : Fault) : (s.raise f).stream = s.stream := rfl
@[simp] theorem State.writeCtx_stream (c : CtxId) (v : Context) : (s.writeCtx c v).stream = s.stream := rfl
@[simp] theorem State.finishReset_stream : s.finishReset.stream = s.stream := rfl
@[simp] theorem State.hostRead_stream (n : Nat) : (s.hostRead n).stream = s.stream := rfl

@[simp] theorem State.wait_stream : s.wait.stream = s.stream := by
  simp [State.stream_def]

@[simp] theorem State.hostWrite_stream (b : List Byte) : (s.hostWrite b).stream = s.stream ++ b := by
  simp [State.stream_def]

end Sys2Proof.Machine
end

