-- ==== Sys2Proof/Laws/Ops.lean ====
section
/-! SUPPORT. Everything each shared operation can do, said once: callers cite these lemmas and do not unfold. -/

namespace Sys2Proof.Machine

/-! ### Operands -/

/-- A take that succeeds takes the first `n` bytes, all of them there, and leaves the rest in order. -/
theorem takeBytes_eq_some {n : Nat} {b x r : List Byte} :
    takeBytes n b = some (x, r) ↔ x.length = n ∧ b = x ++ r := by
  unfold takeBytes
  constructor
  · intro h
    split at h
    · next hn =>
      obtain ⟨rfl, rfl⟩ := Prod.mk.injEq _ _ _ _ ▸ Option.some.inj h
      exact ⟨by simp [hn], (List.take_append_drop n b).symm⟩
    · exact absurd h (by simp)
  · rintro ⟨rfl, rfl⟩
    simp

/-- A take fails exactly when fewer than `n` bytes are there. -/
theorem takeBytes_eq_none {n : Nat} {b : List Byte} : takeBytes n b = none ↔ b.length < n := by
  unfold takeBytes
  split <;> simp <;> omega

@[simp] theorem takeBytes_append (x r : List Byte) : takeBytes x.length (x ++ r) = some (x, r) :=
  takeBytes_eq_some.2 ⟨rfl, rfl⟩

@[simp] theorem bytes32_length (v : Word) : (bytes32 v).length = 4 := rfl

@[simp] theorem bytes64_length (v : Count) : (bytes64 v).length = 8 := rfl

@[simp] theorem ctxOfIndex_ctxIndex (c : CtxId) : ctxOfIndex (ctxIndex c) = c := by
  cases c <;> rfl

@[simp] theorem ctxIndex_ctxOfIndex (x : BitVec 2) : ctxIndex (ctxOfIndex x) = x := by
  revert x
  decide

/-! ### The length sum -/

/-- The sum fits: it is the exact sum, and it does not exceed the largest count. -/
theorem lengthSum_eq_some {bp v : Count} {n : Nat} :
    lengthSum bp n = some v ↔ v.toNat = bp.toNat + n := by
  unfold lengthSum Config.maxCount
  have hv := v.isLt
  split
  · next h =>
    rw [Option.some.injEq, ← BitVec.toNat_inj, BitVec.toNat_ofNat, Nat.mod_eq_of_lt (by omega)]
    exact eq_comm
  · next h => simp only [reduceCtorEq, false_iff]; omega

/-- The sum does not fit. -/
theorem lengthSum_eq_none {bp : Count} {n : Nat} :
    lengthSum bp n = none ↔ Config.maxCount < bp.toNat + n := by
  unfold lengthSum
  split <;> simp <;> omega

@[simp] theorem lengthSum_zero (bp : Count) : lengthSum bp 0 = some bp :=
  lengthSum_eq_some.2 rfl

/-! ### The phases -/

/-- The values of a 2-bit code and of a 1-bit flag. -/
theorem code_cases : ∀ c : BitVec 2, c = 0 ∨ c = 1 ∨ c = 2 ∨ c = 3 := by decide

theorem flag_cases : ∀ r : BitVec 1, r = 0 ∨ r = 1 := by decide

theorem phase_eq_stopped {t : Status} {f : Fault} :
    t.phase = .stopped f ↔ t.faultCode = faultCodeOf f ∧ t.faultInfo = faultInfoOf f := by
  obtain ⟨r, c, i⟩ := t
  rcases code_cases c with rfl | rfl | rfl | rfl <;> rcases flag_cases r with rfl | rfl <;> cases f <;>
    simp [Status.phase, faultCodeOf, faultInfoOf]

theorem phase_eq_running {t : Status} : t.phase = .running ↔ t.ready = 1 ∧ t.faultCode = 0 := by
  obtain ⟨r, c, i⟩ := t
  rcases code_cases c with rfl | rfl | rfl | rfl <;> rcases flag_cases r with rfl | rfl <;> simp [Status.phase]

theorem phase_eq_generating {t : Status} : t.phase = .generating ↔ t.ready = 0 ∧ t.faultCode = 0 := by
  obtain ⟨r, c, i⟩ := t
  rcases code_cases c with rfl | rfl | rfl | rfl <;> rcases flag_cases r with rfl | rfl <;> simp [Status.phase]

theorem phase_eq_reserved {t : Status} : t.phase = .reserved ↔ t.faultCode = 3 := by
  obtain ⟨r, c, i⟩ := t
  rcases code_cases c with rfl | rfl | rfl | rfl <;> rcases flag_cases r with rfl | rfl <;> simp [Status.phase]

/-- The code of a cause is neither 0 nor 3. -/
theorem faultCodeOf_legal (f : Fault) : faultCodeOf f ≠ 0 ∧ faultCodeOf f ≠ 3 := by
  cases f <;> simp [faultCodeOf]

end Sys2Proof.Machine
end

