-- ==== Sys2Proof/Laws/Decode.lean ====
section
/-! SUPPORT. What reading a header and reading a command can answer, said once. -/

namespace Sys2Proof

open Machine

/-- A first byte that selects a row is in the opcode map with that row's match under its mask. -/
theorem decodeFirst_eq_some {b0 : Byte} {op : Opcode} (h : decodeFirst b0 = some op) :
    b0 &&& opcodeMask op = opcodeMatch op := by
  have := List.find?_some h
  simpa [selectsOpcode] using this

theorem readHeader_eq_illegal {b : List Byte} {b0 : Byte} :
    readHeader b = .illegal b0 ↔ ∃ rest, b = b0 :: rest ∧ decodeFirst b0 = none := by
  cases b with
  | nil => simp [readHeader]
  | cons x xs =>
    simp only [readHeader]
    split
    · next h =>
      constructor
      · intro e; cases e; exact ⟨xs, rfl, h⟩
      · rintro ⟨r, e, -⟩; cases e; rfl
    · next op h =>
      constructor
      · intro e; split at e <;> cases e
      · rintro ⟨r, e, hn⟩; cases e; rw [h] at hn; cases hn

/-- A whole header is its first byte, which selects its row, and its operand bytes, as many as the format has. -/
theorem readHeader_eq_whole {b : List Byte} {h : Header} {rest : List Byte} :
    readHeader b = .whole h rest ↔
      decodeFirst h.b0 = some h.op ∧ h.operands.length = operandBytes (opcodeFormat h.op) ∧
        b = h.b0 :: (h.operands ++ rest) := by
  cases b with
  | nil => simp [readHeader]
  | cons x xs =>
    simp only [readHeader]
    split
    · next hn =>
      constructor
      · intro e; cases e
      · rintro ⟨hs, -, e⟩
        cases e
        rw [hn] at hs
        cases hs
    · next op hs =>
      constructor
      · intro e
        split at e
        · cases e
        · next ops r ht =>
          cases e
          obtain ⟨hl, rfl⟩ := takeBytes_eq_some.1 ht
          exact ⟨hs, hl, rfl⟩
      · rintro ⟨hs', hl, e⟩
        obtain ⟨hop, b0, ops⟩ := h
        simp only at hs' hl e
        obtain ⟨rfl, rfl⟩ := List.cons.inj e
        rw [hs] at hs'
        cases hs'
        rw [takeBytes_eq_some.2 ⟨hl, rfl⟩]

/-- A header is incomplete when no byte is there, or the first byte is legal and operand bytes are missing. -/
theorem readHeader_eq_incomplete {b : List Byte} :
    readHeader b = .incomplete ↔
      b = [] ∨ ∃ b0 rest op, b = b0 :: rest ∧ decodeFirst b0 = some op ∧
        rest.length < operandBytes (opcodeFormat op) := by
  cases b with
  | nil => simp [readHeader]
  | cons x xs =>
    simp only [readHeader]
    split
    · next hn =>
      constructor
      · intro e; cases e
      · rintro (e | ⟨b0, r, op, e, hs, -⟩)
        · cases e
        · cases e; rw [hn] at hs; cases hs
    · next op hs =>
      constructor
      · intro e
        split at e
        · next ht => exact .inr ⟨x, xs, op, rfl, hs, takeBytes_eq_none.1 ht⟩
        · cases e
      · rintro (e | ⟨b0, r, op', e, hs', hl⟩)
        · cases e
        · cases e
          rw [hs] at hs'
          cases hs'
          rw [takeBytes_eq_none.2 hl]

theorem decode_eq_illegal {b : List Byte} {b0 : Byte} :
    decode b = .illegal b0 ↔ ∃ rest, b = b0 :: rest ∧ decodeFirst b0 = none := by
  rw [← readHeader_eq_illegal]
  unfold decode
  split
  · simp_all
  · simp_all
  · next h =>
    constructor
    · intro e; split at e <;> cases e
    · intro e; rw [h] at e; cases e

/-- A whole command is a whole header and as many payload bytes as it announces. -/
theorem decode_eq_complete {b : List Byte} {i : Instr} {rest : List Byte} :
    decode b = .complete i rest ↔
      ∃ h data, readHeader b = .whole h (data ++ rest) ∧ data.length = h.payloadLength ∧ i = h.instr data := by
  unfold decode
  split
  · next hb => simp [hb]
  · next hb => simp [hb]
  · next h r hb =>
    constructor
    · intro e
      split at e
      · cases e
      · next d r' ht =>
        cases e
        obtain ⟨hl, rfl⟩ := takeBytes_eq_some.1 ht
        exact ⟨h, d, hb, hl, rfl⟩
    · rintro ⟨h', d, hb', hl, rfl⟩
      rw [hb] at hb'
      cases hb'
      rw [takeBytes_eq_some.2 ⟨hl, rfl⟩]

/-- A command is incomplete when its header is, or when payload bytes are missing. -/
theorem decode_eq_incomplete {b : List Byte} :
    decode b = .incomplete ↔
      readHeader b = .incomplete ∨ ∃ h rest, readHeader b = .whole h rest ∧ rest.length < h.payloadLength := by
  unfold decode
  split
  · next hb => simp [hb]
  · next hb => simp [hb]
  · next h r hb =>
    constructor
    · intro e
      split at e
      · next ht => exact .inr ⟨h, r, hb, takeBytes_eq_none.1 ht⟩
      · cases e
    · rintro (e | ⟨h', r', e, hl⟩)
      · rw [hb] at e; cases e
      · rw [hb] at e; cases e
        rw [takeBytes_eq_none.2 hl]

end Sys2Proof
end

