-- ==== Sys2Proof/Laws/Step.lean ====
section
/-! SUPPORT. What a step can do, said once; invariants are derived from these lemmas and not from unfolding `step`. -/

namespace Sys2Proof.Machine

/-- A header fault is an APPEND header, whole, whose length does not fit. -/
theorem headerFault_eq_some {s : State} {f : Fault} :
    headerFault s = some f ↔
      ∃ h rest, readHeader s.stream = .whole h rest ∧ h.op = .append ∧
        Config.maxCount < (s.readCtx (fieldC h.b0)).bp.toNat + h.payloadLength ∧ f = .lengthOverflow h.b0 := by
  unfold headerFault
  split
  · next hb => simp [hb]
  · next hb => simp [hb]
  · next h r hb =>
    constructor
    · intro e
      split at e
      · next hc =>
        obtain ⟨ho, hl⟩ := hc
        cases e
        exact ⟨h, r, hb, ho, lengthSum_eq_none.1 hl, rfl⟩
      · cases e
    · rintro ⟨h', r', e, ho, hl, rfl⟩
      rw [hb] at e
      cases e
      rw [if_pos ⟨ho, lengthSum_eq_none.2 hl⟩]

/-- Everything a step that answers a next state can have done. -/
theorem step_eq_next {s t : State} :
    step s = .next t ↔
      (s.status.ready = 0 ∧ s.status.faultCode = 0 ∧ t = s.finishReset) ∨
      (s.status.ready = 1 ∧ s.status.faultCode = 0 ∧
        ((∃ i rest, decode s.stream = .complete i rest ∧ exec i s = .next t) ∨
         (∃ b0, decode s.stream = .illegal b0 ∧ t = (s.advance 1).raise (.illegalCommand b0)) ∨
         (∃ f, decode s.stream = .incomplete ∧ headerFault s = some f ∧ t = (s.advance 5).raise f) ∨
         (decode s.stream = .incomplete ∧ headerFault s = none ∧ t = s.wait))) := by
  unfold step
  split
  · next f h =>
    obtain ⟨hc, -⟩ := phase_eq_stopped.1 h
    constructor
    · intro e; cases e
    · rintro (⟨-, h0, -⟩ | ⟨-, h0, -⟩) <;> exact absurd (h0.symm.trans hc).symm (faultCodeOf_legal f).1
  · next h =>
    have hc := phase_eq_reserved.1 h
    constructor
    · intro e; cases e
    · rintro (⟨-, h0, -⟩ | ⟨-, h0, -⟩) <;> (rw [h0] at hc; exact absurd hc (by decide))
  · next h =>
    obtain ⟨hr, hc⟩ := phase_eq_generating.1 h
    constructor
    · intro e; cases e; exact .inl ⟨hr, hc, rfl⟩
    · rintro (⟨-, -, rfl⟩ | ⟨h1, -, -⟩)
      · rfl
      · rw [hr] at h1; exact absurd h1 (by decide)
  · next h =>
    obtain ⟨hr, hc⟩ := phase_eq_running.1 h
    simp only [hr, hc, true_and]
    unfold fetch
    cases hd : decode s.stream with
    | complete i r => simp
    | illegal b0 => simp [stepIllegal, eq_comm]
    | incomplete =>
      cases hf : headerFault s <;> simp [stepPartial, hf, eq_comm]

/-- A step from the fault state answers the fault it is in, and nothing else does. -/
theorem step_eq_fault {s : State} {f : Fault} (h : step s = .fault f) :
    (s.status.faultCode = faultCodeOf f ∧ s.status.faultInfo = faultInfoOf f) ∨
      ∃ i rest, decode s.stream = .complete i rest ∧ exec i s = .fault f := by
  unfold step at h
  split at h
  · next hp => cases h; exact .inl (phase_eq_stopped.1 hp)
  · cases h
  · cases h
  · unfold fetch at h
    cases hd : decode s.stream with
    | complete i r => rw [hd] at h; exact .inr ⟨i, r, rfl, h⟩
    | illegal b0 => rw [hd] at h; cases h
    | incomplete => rw [hd] at h; cases h

end Sys2Proof.Machine
end

