-- ==== Sys2Proof/Laws/Exec.lean ====
section
/-! SUPPORT. What each command's meaning can answer. Every meaning answers a next state; two of them have two cases. -/

namespace Sys2Proof.Machine

variable (s : State)

theorem exec_tread (k : BitVec 4) (n : Byte) : exec (.tread k n) s = .next ((s.advance 2).emit32 (T k n)) := rfl

theorem exec_updb (prev : Word) (data : List Byte) :
    exec (.updb prev data) s = .next ((s.advance (9 + data.length)).emit32 (updateByte prev data)) := rfl

theorem exec_updf (prev : Word) (data : List Byte) :
    exec (.updf prev data) s = .next ((s.advance (9 + data.length)).emit32 (updateFast prev data)) := rfl

theorem exec_reset (c : CtxId) : exec (.reset c) s = .next ((s.advance 1).writeCtx c Context.initial) := rfl

theorem exec_seed (c : CtxId) (v : Word) :
    exec (.seed c v) s = .next ((s.advance 5).writeCtx c { s.readCtx c with rv := v }) := rfl

theorem exec_checksum (c : CtxId) : exec (.checksum c) s = .next ((s.advance 1).emit32 (s.readCtx c).rv) := rfl

theorem exec_cmb (a b : Word) (n : Count) :
    exec (.cmb a b n) s = .next ((s.advance 17).emit32 (combineCrc a b n)) := rfl

/-- APPEND when the length fits. -/
theorem exec_append_of_fits {c : CtxId} {data : List Byte} {bp : Count}
    (h : lengthSum (s.readCtx c).bp data.length = some bp) :
    exec (.append c data) s =
      .next ((s.advance (5 + data.length)).writeCtx c ⟨updateFast (s.readCtx c).rv data, bp⟩) := by
  simp [exec, execAppend, h]

/-- APPEND when the length does not fit. -/
theorem exec_append_of_overflow {c : CtxId} {data : List Byte}
    (h : lengthSum (s.readCtx c).bp data.length = none) :
    exec (.append c data) s = .next ((s.advance 5).raise (.lengthOverflow (firstByte (.append c data)))) := by
  simp [exec, execAppend, h]

/-- COMBINE when the length fits. -/
theorem exec_combine_of_fits {c o : CtxId} {bp : Count}
    (h : lengthSum (s.readCtx c).bp (s.readCtx o).bp.toNat = some bp) :
    exec (.combine c o) s =
      .next ((s.advance 1).writeCtx c
        ⟨combineCrc (s.readCtx c).rv (s.readCtx o).rv (s.readCtx o).bp, bp⟩) := by
  simp [exec, execCombine, h]

/-- COMBINE when the length does not fit. -/
theorem exec_combine_of_overflow {c o : CtxId}
    (h : lengthSum (s.readCtx c).bp (s.readCtx o).bp.toNat = none) :
    exec (.combine c o) s = .next ((s.advance 1).raise (.lengthOverflow (firstByte (.combine c o)))) := by
  simp [exec, execCombine, h]

/-- The sum fits or it does not. -/
theorem lengthSum_cases (bp : Count) (n : Nat) :
    (∃ v, lengthSum bp n = some v ∧ v.toNat = bp.toNat + n) ∨
      (lengthSum bp n = none ∧ Config.maxCount < bp.toNat + n) := by
  cases h : lengthSum bp n with
  | none => exact .inr ⟨rfl, lengthSum_eq_none.1 h⟩
  | some v => exact .inl ⟨v, rfl, lengthSum_eq_some.1 h⟩

end Sys2Proof.Machine
end

