-- ==== Sys2Proof/Laws/PerInstr.lean ====
section
/-! SUPPORT. Facts about commands as text of bytes, one lemma per constructor of Instr. -/

namespace Sys2Proof.Laws.EncodedLength

open Sys2Proof.Machine

/-- A command's bytes are as many as spec/30_encoding.md R72 says. -/
def Statement (i : Instr) : Prop := (encode i).length = commandLength i

theorem tread (k : BitVec 4) (n : Byte) : Statement (.tread k n) := by
  simp [Statement, encode, commandLength, headerLength, operandFields, payload]

theorem updb (prev : Word) (data : List Byte) : Statement (.updb prev data) := by
  simp [Statement, encode, commandLength, headerLength, operandFields, payload, lengthField]
  omega

theorem updf (prev : Word) (data : List Byte) : Statement (.updf prev data) := by
  simp [Statement, encode, commandLength, headerLength, operandFields, payload, lengthField]
  omega

theorem reset (c : CtxId) : Statement (.reset c) := by
  simp [Statement, encode, commandLength, headerLength, operandFields, payload]

theorem seed (c : CtxId) (value : Word) : Statement (.seed c value) := by
  simp [Statement, encode, commandLength, headerLength, operandFields, payload]

theorem append (c : CtxId) (data : List Byte) : Statement (.append c data) := by
  simp [Statement, encode, commandLength, headerLength, operandFields, payload, lengthField]
  omega

theorem checksum (c : CtxId) : Statement (.checksum c) := by
  simp [Statement, encode, commandLength, headerLength, operandFields, payload]

theorem combine (c o : CtxId) : Statement (.combine c o) := by
  simp [Statement, encode, commandLength, headerLength, operandFields, payload]

theorem cmb (crc1 crc2 : Word) (len2 : Count) : Statement (.cmb crc1 crc2 len2) := by
  simp [Statement, encode, commandLength, headerLength, operandFields, payload]

end Sys2Proof.Laws.EncodedLength
end

