-- ==== Sys2Proof/Tests/Slice0.lean ====
section
/-! SUPPORT. The model's own tests: what WellFormed refuses, words of the spec's encoding, one step of each command on
small states, and for every statement of the certificates with hypotheses a state and operands that meet them. Every
expected value is the spec's (the section is named at each group). -/

namespace Sys2Proof.Tests

open Sys2Proof.Machine

/-- After reset, with `b` written to `CIN`. -/
def withInput (b : List Byte) : State := State.reset.hostWrite b

/-- The state a step answers; the reset state when it answers none. -/
def afterStep (s : State) : State :=
  match step s with
  | .next t => t
  | .fault _ => State.reset
  | .refused _ => State.reset

/-- A context with its fields, everything else as after reset and `b` in `CIN`. -/
def withCtx (c : CtxId) (rv : Word) (bp : Count) (b : List Byte) : State :=
  (withInput b).writeCtx c ⟨rv, bp⟩

/-! ### WellFormed: a payload of `2^32` bytes has no encoding, one of `2^32 - 1` has (30_encoding.md R77) -/

theorem payloadFits_replicate (n : Nat) (x : Byte) : payloadFits (List.replicate n x) = decide (n < 2 ^ 32) := by
  rw [payloadFits, List.length_replicate, Config.payloadBound]

theorem test_long_updb_is_ill_formed (prev : Word) : (Instr.updb prev (List.replicate (2 ^ 32) 0)).wf = false :=
  (payloadFits_replicate _ _).trans (by decide)

theorem test_long_updf_is_ill_formed (prev : Word) : (Instr.updf prev (List.replicate (2 ^ 32) 0)).wf = false :=
  (payloadFits_replicate _ _).trans (by decide)

theorem test_long_append_is_ill_formed (c : CtxId) : (Instr.append c (List.replicate (2 ^ 32) 0)).wf = false :=
  (payloadFits_replicate _ _).trans (by decide)

theorem test_longest_append_is_well_formed (c : CtxId) :
    (Instr.append c (List.replicate (2 ^ 32 - 1) 0)).wf = true :=
  (payloadFits_replicate _ _).trans (by decide)

/-! ### Decoding (30_encoding.md R72, R74; words written out bit by bit) -/

theorem test_decode_tread :
    decode [0b00011111#8, 0b10000000#8] = .complete (.tread 0b1111 0b10000000) [] := by decide

theorem test_decode_updb :
    decode [0b00100000#8, 0x12, 0x34, 0x56, 0x78, 0x00, 0x00, 0x00, 0x02, 0xAA, 0xBB, 0xCC] =
      .complete (.updb 0x12345678 [0xAA, 0xBB]) [0xCC] := by decide

theorem test_decode_updf :
    decode [0b00110000#8, 0xDE, 0xAD, 0xBE, 0xEF, 0x00, 0x00, 0x00, 0x00] =
      .complete (.updf 0xDEADBEEF []) [] := by decide

theorem test_decode_reset : decode [0b01000100#8] = .complete (.reset .c1) [] := by decide

theorem test_decode_seed :
    decode [0b01011000#8, 0xA8, 0xA1, 0xAE, 0x0A] = .complete (.seed .c2 0xA8A1AE0A) [] := by decide

theorem test_decode_append :
    decode [0b01101100#8, 0x00, 0x00, 0x00, 0x01, 0x61] = .complete (.append .c3 [0x61]) [] := by decide

theorem test_decode_checksum : decode [0b01110000#8, 0x74] = .complete (.checksum .c0) [0x74] := by decide

theorem test_decode_combine : decode [0b10000110#8] = .complete (.combine .c1 .c2) [] := by decide

theorem test_decode_cmb :
    decode [0b10010000#8, 0x00, 0x00, 0x00, 0x01, 0x00, 0x00, 0x00, 0x02, 0x80, 0x00, 0x00, 0x00, 0x00, 0x00, 0x00, 0x03] =
      .complete (.cmb 1 2 0x8000000000000003) [] := by decide

/-- The table of 95_test_vectors.md section 2.6: first bytes that are illegal. -/
theorem test_decode_illegal_first_bytes :
    ∀ b ∈ ([0x00, 0x0F, 0x21, 0x2F, 0x31, 0x41, 0x42, 0x43, 0x53, 0x62, 0x71, 0x91, 0x9F, 0xA0, 0xF0, 0xFF] : List Byte),
      decode [b, 0x40] = .illegal b := by decide

theorem test_decode_waits_for_payload : decode [0x60, 0x00, 0x00, 0x00, 0x05, 0x68, 0x65] = .incomplete := by decide

/-- The opcode table's numbering: the first byte in bits 7 to 0, the second in bits 15 to 8. -/
theorem test_decode_table_word :
    decodeTableWord 16 0xFF1F = some (.tread 15 0xFF) ∧ decodeTableWord 8 0x90 = some (.cmb 0 0 0) ∧
      decodeTableWord 72 0x020000000000000020 = some (.updb 0 [0, 0]) := by decide

/-! ### Functions (40_table_generator.md section 4; 41 section 4; 42 section 5; 44 section 6) -/

theorem test_table_zero : T 0 0x9E = 0x17B7BE43 ∧ T 0 0xFF = 0x2D02EF8D := by decide

theorem test_table_fifteen : T 15 0x80 = 0x5CFDEDF4 := by decide

theorem test_update_byte_two_bytes : updateByte 0 [0x61, 0x62] = 0x9E83486D := by decide

theorem test_gstep_folds_byte_two : gstep 0x00010000 (List.replicate 16 0) = 0x9D0FE176 := by decide

theorem test_m4_row_zero : gf2Times (gf2Square (gf2Square M1)) 1 = 0x1DB71064 := by decide

theorem test_standard_crc32_one_byte : standardCrc32 [0x61] = 0xE8B7BE43 := by decide +kernel

/-! ### One step of each command (95_test_vectors.md sections 2.1 to 2.6, and the examples of the rules) -/

theorem test_step_tread : (afterStep (withInput [0x11, 0x01])).rout = [0x19, 0x1B, 0x31, 0x41] := by decide

theorem test_step_updb :
    (afterStep (withInput [0x20, 0xE8, 0xB7, 0xBE, 0x43, 0x00, 0x00, 0x00, 0x01, 0x62])).rout =
      [0x9E, 0x83, 0x48, 0x6D] := by decide

/-- 64 bytes of `FF` (section 2.3): one block and an empty tail. -/
theorem test_step_updf_one_block :
    (afterStep (withInput ([0x30, 0x00, 0x00, 0x00, 0x00, 0x00, 0x00, 0x00, 0x40] ++ List.replicate 64 0xFF))).rout =
      [0x0F, 0x61, 0x87, 0xBA] := by decide

theorem test_step_reset : (afterStep (withCtx .c1 0xDEADBEEF 7 [0x44])).ctx = Contexts.initial := by decide

theorem test_step_seed_keeps_count :
    (afterStep (withCtx .c2 0x3610A686 5 [0x58, 0xA8, 0xA1, 0xAE, 0x0A])).readCtx .c2 = ⟨0xA8A1AE0A, 5⟩ := by decide

theorem test_step_append :
    (afterStep (withInput [0x60, 0x00, 0x00, 0x00, 0x05, 0x68, 0x65, 0x6C, 0x6C, 0x6F])).readCtx .c0 =
      ⟨0x3610A686, 5⟩ := by decide

/-- Program P7 at `@141`: the fault is raised before the payload byte is taken. -/
theorem test_step_append_overflow :
    let t := afterStep (withCtx .c0 0 0xFFFFFFFFFFFFFFFF [0x60, 0x00, 0x00, 0x00, 0x01, 0x61])
    t.status = ⟨1, 2, 0x60⟩ ∧ t.cin = [0x61] ∧ t.pos = 5 ∧ t.readCtx .c0 = ⟨0, 0xFFFFFFFFFFFFFFFF⟩ := by decide

theorem test_step_checksum : (afterStep (withCtx .c0 0x3610A686 5 [0x70])).rout = [0x36, 0x10, 0xA6, 0x86] := by decide

/-- Row A7: a context combined with itself. -/
theorem test_step_combine_self :
    (afterStep (withCtx .c0 0x9E83486D 2 [0x80])).readCtx .c0 = ⟨0x36D70AA6, 4⟩ := by decide

/-- Program P6 at `@70`. -/
theorem test_step_combine_overflow :
    let t := afterStep (withCtx .c0 0x971A5A74 0x8000000000000000 [0x80, 0x70])
    t.status = ⟨1, 2, 0x80⟩ ∧ t.cin = [0x70] ∧ t.readCtx .c0 = ⟨0x971A5A74, 0x8000000000000000⟩ := by decide

theorem test_step_cmb :
    (afterStep (withInput [0x90, 0x36, 0x10, 0xA6, 0x86, 0x4A, 0x3B, 0x42, 0xCB, 0, 0, 0, 0, 0, 0, 0, 6])).rout =
      [0x0D, 0x4A, 0x11, 0x85] := by decide

/-- Program P5b. -/
theorem test_step_illegal :
    let t := afterStep (withInput [0x41, 0x70])
    t.status = ⟨1, 1, 0x41⟩ ∧ t.cin = [0x70] ∧ t.pos = 1 ∧ t.statusWord = 0x20B := by decide

/-- The wait of section 2.6, and the command completing when its bytes arrive. -/
theorem test_step_wait :
    let t := afterStep (withInput [0x60, 0x00, 0x00, 0x00, 0x05, 0x68, 0x65])
    t.held.length = 7 ∧ t.ctx = Contexts.initial ∧
      (afterStep (t.hostWrite [0x6C, 0x6C, 0x6F])).readCtx .c0 = ⟨0x3610A686, 5⟩ := by decide

/-- `APPEND c0, "hello"` and `HASH 2 x 0xFF` in assembler text (30_encoding.md R77, R78). -/
theorem test_assemble :
    assemble "APPEND c0, \"hello\" ; a comment\n\nHASH 2 x 0xFF ++ \"a\"".toList =
      some [.append .c0 [0x68, 0x65, 0x6C, 0x6C, 0x6F], .updf 0 [0xFF, 0xFF, 0x61]] := by decide

/-! ### A state and operands that meet the hypotheses of each statement

One theorem a statement, by the statement's name; the clauses of a statement are the parts of its conjunction, at the
ends of their ranges. -/

theorem witness_DecodeOfEncodeIsTheCommand :
    (Instr.append .c1 [0x00, 0xFF]).wf = true ∧ (Instr.cmb 0 0xFFFFFFFF 0xFFFFFFFFFFFFFFFF).wf = true := by decide

theorem witness_DecodedBytesAreTheEncoding :
    decode [0x6C, 0, 0, 0, 1, 0x61, 0x70] = .complete (.append .c3 [0x61]) [0x70] := by decide

theorem witness_IncompleteBytesAreAProperBeginning :
    decode [] = .incomplete ∧ decode [0x60, 0, 0, 0, 1] = .incomplete ∧
      (Instr.append .c0 [0x61]).wf = true ∧ encode (.append .c0 [0x61]) = [0x60, 0, 0, 0, 1] ++ [0x61] := by decide

theorem witness_OneBitOperatorIsTheLinearShift :
    1 ≤ 1 ∧ 1 < 32 ∧ 1 ≤ 31 ∧ 31 < 32 ∧ M (BitVec.ofNat 32 (2 ^ 31)) = BitVec.ofNat 32 (2 ^ 30) := by decide

theorem witness_GeneratorFillsTheTables :
    1 ≤ 1 ∧ 1 ≤ 15 ∧ 15 ≤ 15 ∧
      T (BitVec.ofNat 4 1) 0x01 = (T (BitVec.ofNat 4 0) 0x01 >>> 8) ^^^ T 0 0x96 := by decide

theorem witness_BulkStepIsSixteenByteSteps : (List.replicate 16 (0xFF : Byte)).length = 16 := by decide

theorem witness_BulkPathTakesWholeBlocks :
    ([] : List Byte).length < 64 ∧ (List.replicate 63 (0 : Byte)).length < 64 ∧
      (List.replicate 16 (0 : Byte)).length = 16 ∧
      ([63, 64, 65, 128].map fun n => (List.replicate n (0 : Byte)).length / Config.block) = [0, 1, 1, 2] := by decide

/-- The tail, on both sides of one block and of two, from R131's own formula `len(d) mod 64`. -/
theorem test_bulk_tail_lengths :
    ([0, 63, 64, 65, 127, 128].map fun n =>
      (blockLoop (n / Config.block) 0xFFFFFFFF (List.replicate n 0x61)).2.length) = [0, 63, 0, 1, 63, 0] := by decide

theorem witness_BulkPathEqualsByteWisePath :
    0 ≤ (List.replicate 65 (0 : Byte)).length ∧ 65 ≤ (List.replicate 65 (0 : Byte)).length := by decide

theorem witness_MatrixTimesVectorXorsTheRows : M1.length = 32 ∧ 0 < 32 ∧ 31 < 32 := by decide

theorem witness_SquaredMatrixAppliesTwice : M1.length = 32 ∧ (gf2Square M1).length = 32 ∧ 31 < 32 := by decide

theorem witness_OneBitMatrixIsTheOneBitOperator : 1 ≤ 1 ∧ 1 ≤ 31 ∧ 31 ≤ 31 ∧ M1.getD 31 0 = 0x40000000 := by decide

theorem witness_CombineIsThePowerOfTheOneBitOperator : (1 : Count) ≠ 0 ∧ (0xFFFFFFFFFFFFFFFF : Count) ≠ 0 := by decide

theorem witness_CombineOfChecksumsIsTheChecksumOfBoth :
    ([] : List Byte).length < 2 ^ 64 ∧ ([0x62] : List Byte).length < 2 ^ 64 := by decide

theorem witness_CombineWorkIsBounded :
    (1 : Count) ≠ 0 ∧ 2 ^ 63 ≤ (0x8000000000000000 : Count).toNat ∧ (0x8000000000000000 : Count) ≠ 0 := by decide

theorem witness_CombinationCommandEmitsTheChecksum : (1 : Count) ≠ 0 := by decide

/-- The largest count that can be reached, and the length 0 on it. -/
theorem witness_AppendCommandHashesThePayload :
    ((withCtx .c0 0 0xFFFFFFFFFFFFFFFF []).readCtx .c0).bp.toNat + ([] : List Byte).length ≤ 2 ^ 64 - 1 ∧
      ((withCtx .c0 0 0xFFFFFFFFFFFFFFFE []).readCtx .c0).bp.toNat + ([0x61] : List Byte).length ≤ 2 ^ 64 - 1 := by
  decide

theorem witness_CombineCommandMergesTheContexts :
    let s := (withCtx .c0 0 0x7FFFFFFFFFFFFFFF []).writeCtx .c1 ⟨0, 0x8000000000000000⟩
    (s.readCtx .c0).bp.toNat + (s.readCtx .c1).bp.toNat ≤ 2 ^ 64 - 1 ∧
      (s.readCtx .c0).bp.toNat + (s.readCtx .c0).bp.toNat ≤ 2 ^ 64 - 1 := by decide

theorem witness_CombineCommandCornerCases :
    ((withCtx .c1 0x4A3B42CB 0 []).readCtx .c1).bp = 0 ∧
      ((withCtx .c1 0x4A3B42CB 6 []).readCtx .c0 = ⟨0, 0⟩ ∧ ((withCtx .c1 0x4A3B42CB 6 []).readCtx .c1).bp ≠ 0) ∧
      (2 * ([0x61, 0x62] : List Byte).length < 2 ^ 64 ∧
        (withCtx .c0 0x9E83486D 2 []).readCtx .c0 = ⟨updateFast 0 [0x61, 0x62], BitVec.ofNat 64 2⟩) := by decide

theorem witness_RunningValueIsTheChecksumOfTheAppends :
    ([] : List (List Byte)).flatten.length < 2 ^ 64 ∧
      ([[0x61], [], [0x62, 0x63]] : List (List Byte)).flatten.length < 2 ^ 64 ∧
      ((withCtx .c0 0 0xFFFFFFFFFFFFFFFC []).readCtx .c0).bp.toNat +
        ([[0x61], [], [0x62, 0x63]] : List (List Byte)).flatten.length < 2 ^ 64 ∧
      ((withCtx .c0 0 0xFFFFFFFFFFFFFFFF []).readCtx .c0).bp.toNat + ([] : List (List Byte)).flatten.length < 2 ^ 64 ∧
      (0 : Word) = updateFast 0 [] := by decide

theorem witness_SeededStreamEqualsOneHash : ([0x20, 0x77] : List Byte).length < 2 ^ 64 := by decide

theorem witness_OneShotHashEqualsResetAppendChecksum : ([0x61] : List Byte).length < 2 ^ 64 := by decide

theorem witness_SplitDataGivesTheSameResult :
    ((withCtx .c0 0 0xFFFFFFFFFFFFFFFD []).readCtx .c0).bp.toNat + (([0x61] : List Byte) ++ [0x62]).length < 2 ^ 64 := by
  decide

theorem witness_CommandsTouchOnlyTheContextsTheyName :
    ¬ namesCtx .c2 (.combine .c0 .c1) ∧
      exec (.combine .c0 .c1) State.reset = .next ((State.reset.advance 1).writeCtx .c0 ⟨combineCrc 0 0 0, 0⟩) := by
  refine ⟨by simp [namesCtx], exec_combine_of_fits _ ?_⟩
  decide

theorem witness_CommandsWriteOnlyTheirFirstContext :
    ¬ writesCtx .c1 (.combine .c0 .c1) ∧
      exec (.combine .c0 .c1) State.reset = .next ((State.reset.advance 1).writeCtx .c0 ⟨combineCrc 0 0 0, 0⟩) := by
  refine ⟨by simp [writesCtx], exec_combine_of_fits _ ?_⟩
  decide

theorem witness_CommandsOnDifferentContextsCommute :
    (∀ x, ¬ (namesCtx x (.reset .c0) ∧ namesCtx x (.seed .c1 1))) ∧
      ∃ a ab b ba, exec (.reset .c0) State.reset = .next a ∧ exec (.seed .c1 1) a = .next ab ∧
        exec (.seed .c1 1) State.reset = .next b ∧ exec (.reset .c0) b = .next ba := by
  refine ⟨fun x => ?_, _, _, _, _, rfl, rfl, rfl, rfl⟩
  cases x <;> simp [namesCtx]

theorem witness_BytesProcessedNeverFalls :
    (withInput [0x60, 0, 0, 0, 0]).Running ∧ (∃ t, step (withInput [0x60, 0, 0, 0, 0]) = .next t) ∧
      ∀ rest, decode (withInput [0x60, 0, 0, 0, 0]).stream ≠ .complete (.reset .c0) rest := by
  refine ⟨by decide, ⟨_, rfl⟩, fun rest h => ?_⟩
  have hd : decode (withInput [0x60, 0, 0, 0, 0]).stream = .complete (.append .c0 []) [] := by decide
  rw [hd] at h
  cases h

theorem witness_FiveCommandsRespondWithFourBytes :
    (∃ t, exec (.checksum .c0) State.reset = .next t ∧ responds (.checksum .c0) = true) ∧
      ∃ t, exec (.reset .c0) State.reset = .next t ∧ responds (.reset .c0) = false :=
  ⟨⟨_, rfl, rfl⟩, ⟨_, rfl, rfl⟩⟩

/-- One byte of each of the three classes of R76, at the ends of their ranges. -/
theorem witness_IllegalFirstByteStopsTheEngine :
    ((withInput [0x00]).Running ∧ (withInput [0x00]).held = [] ∧ (withInput [0x00]).cin = 0x00 :: []) ∧
      ∀ b ∈ ([0x00, 0x0F, 0xA0, 0xFF, 0x21, 0x9F, 0x41, 0x7F] : List Byte), IllegalFirst b := by decide

/-- The least length that does not fit, with the payload byte there and not there, and with part of the header held. -/
theorem witness_AppendOverflowStopsBeforeThePayload :
    let whole := withCtx .c0 0 0xFFFFFFFFFFFFFFFF [0x60, 0, 0, 0, 1, 0x61]
    let short := withCtx .c0 0 0xFFFFFFFFFFFFFFFF [0x60, 0, 0, 0, 1]
    let split := { withCtx .c0 0 0xFFFFFFFFFFFFFFFF [1] with held := [0x60, 0, 0, 0], pos := 4 }
    (whole.Running ∧ whole.held.length < 5 ∧
      whole.stream = firstByte (.append .c0 []) :: (responseBytes 1 ++ [0x61])) ∧
    (short.Running ∧ short.held.length < 5 ∧ short.stream = firstByte (.append .c0 []) :: (responseBytes 1 ++ [])) ∧
    (split.Running ∧ split.held.length < 5 ∧ split.stream = firstByte (.append .c0 []) :: (responseBytes 1 ++ [])) ∧
    2 ^ 64 - 1 < (whole.readCtx .c0).bp.toNat + (1 : Word).toNat := by decide

theorem witness_CombineOverflowLeavesTheContext :
    let s := withCtx .c0 0 0x8000000000000000 []
    2 ^ 64 - 1 < (s.readCtx .c0).bp.toNat + (s.readCtx .c0).bp.toNat := by decide

/-- One state for each of the three causes. -/
theorem witness_FaultsHaveOnlyTheListedCauses :
    (∃ t, step (withInput [0x00]) = .next t ∧ t.status.faultCode ≠ 0) ∧
    (∃ t, step (withCtx .c0 0 0xFFFFFFFFFFFFFFFF [0x60, 0, 0, 0, 1]) = .next t ∧ t.status.faultCode ≠ 0) ∧
    ∃ t, step (withCtx .c0 0 0x8000000000000000 [0x80]) = .next t ∧ t.status.faultCode ≠ 0 :=
  ⟨⟨_, rfl, by decide⟩, ⟨_, rfl, by decide⟩, ⟨_, rfl, by decide⟩⟩

theorem witness_FaultStateIsPermanentUntilReset :
    let s := State.reset.raise (.illegalCommand 0x41)
    let t := State.reset.raise (.lengthOverflow 0x80)
    (s.status.faultCode = faultCodeOf (.illegalCommand 0x41) ∧ s.status.faultInfo = faultInfoOf (.illegalCommand 0x41)) ∧
      (t.status.faultCode = faultCodeOf (.lengthOverflow 0x80) ∧
        t.status.faultInfo = faultInfoOf (.lengthOverflow 0x80)) := by decide

theorem witness_EngineAlwaysStepsWithoutFault :
    State.reset.status.faultCode = 0 ∧ State.reset.assertReset.status.faultCode = 0 := by decide

theorem witness_StepRunsTheDecodedCommand :
    (withInput [0x80, 0x70]).Running ∧
      decode (withInput [0x80, 0x70]).stream = .complete (.combine .c0 .c0) [0x70] := by decide

/-- A waiting state: the whole header and one of two payload bytes are held. -/
def waiting : State := { withInput [0x62, 0x70] with held := [0x60, 0, 0, 0, 2, 0x61], pos := 6 }

theorem waiting_inv : waiting.Inv where
  code_legal := by decide
  info_clear := by decide
  not_ready := by decide
  fault_boundary := by decide
  held_partial := by decide
  held_no_fault := by decide
  held_counted := by decide

theorem witness_CompletedCommandIsConsumedWhole :
    waiting.Inv ∧ waiting.Running ∧ decode waiting.stream = .complete (.append .c0 [0x61, 0x62]) [0x70] ∧
      ∃ t, step waiting = .next t ∧ t.status = waiting.status :=
  ⟨waiting_inv, by decide, by decide, _, rfl, by decide⟩

theorem witness_WaitingHoldsTheBytesTaken :
    ((withInput [0x60, 0, 0]).Running ∧ (withInput [0x60, 0, 0]).Starved) ∧
      (State.reset.Running ∧ State.reset.Starved) := by decide

theorem witness_SplittingTheInputChangesNothing :
    (withInput [0x60, 0, 0]).Running ∧ (withInput [0x60, 0, 0]).Starved ∧
      ∃ t, step (withInput [0x60, 0, 0]) = .next t :=
  ⟨by decide, by decide, _, rfl⟩

/-- A command, an illegal byte, and a header that raises a fault. -/
theorem witness_LaterInputDoesNotChangeAStep :
    ((withInput [0x40]).Running ∧ ¬ (withInput [0x40]).Starved ∧ ∃ t, step (withInput [0x40]) = .next t) ∧
    ((withInput [0x00]).Running ∧ ¬ (withInput [0x00]).Starved ∧ ∃ t, step (withInput [0x00]) = .next t) ∧
    let s := withCtx .c0 0 0xFFFFFFFFFFFFFFFF [0x60, 0, 0, 0, 1]
    s.Running ∧ ¬ s.Starved ∧ ∃ t, step s = .next t :=
  ⟨⟨by decide, by decide, _, rfl⟩, ⟨by decide, by decide, _, rfl⟩, by decide, by decide, _, rfl⟩

theorem witness_ResponseChannelIsWriteOnly : ∃ t, step (withInput [0x70]) = .next t := ⟨_, rfl⟩

theorem witness_IdleEngineKeepsItsState : State.reset.status.ready = 1 ∧ State.reset.EndedWell := by decide

theorem witness_ResetAndHostActionsMeetTheInvariant : waiting.Inv := waiting_inv

theorem witness_EveryStepKeepsTheInvariant : waiting.Inv ∧ ∃ t, step waiting = .next t :=
  ⟨waiting_inv, _, rfl⟩

end Sys2Proof.Tests
end

section
/-! SUPPORT. Every command does one thing: it responds, or writes one context, or raises LENGTH_OVERFLOW, and it takes
its bytes off the stream. Which of these, and with which value, is read from the contexts alone. `exec_eq` says that
this is what `exec` does; statements about all nine commands are then statements about three effects. -/

namespace Sys2Proof.Machine

/-- What a command does beside consuming its bytes. -/
inductive Effect where
  | respond (v : Word)
  | write (c : CtxId) (v : Context)
  | overflow (info : Byte)

/-- The effect of a command that writes a byte count: the write when the count fits, else the fault (R213). -/
def Effect.counted (i : Instr) (c : CtxId) (rv : Word) : Option Count → Effect
  | none => .overflow (firstByte i)
  | some bp => .write c ⟨rv, bp⟩

/-- The effect of a command on an engine whose contexts are `x`. -/
def effect (x : Contexts) : Instr → Effect
  | .tread k n => .respond (T k n)
  | .updb prev data => .respond (updateByte prev data)
  | .updf prev data => .respond (updateFast prev data)
  | .reset c => .write c Context.initial
  | .seed c v => .write c { x.get c with rv := v }
  | .append c data =>
    .counted (.append c data) c (updateFast (x.get c).rv data) (lengthSum (x.get c).bp data.length)
  | .checksum c => .respond (x.get c).rv
  | .combine c o =>
    .counted (.combine c o) c (combineCrc (x.get c).rv (x.get o).rv (x.get o).bp)
      (lengthSum (x.get c).bp (x.get o).bp.toNat)
  | .cmb a b n => .respond (combineCrc a b n)

/-- The bytes a command consumes: all of them, or those before the payload when it faults (R75, R213). -/
def Effect.taken (i : Instr) : Effect → Nat
  | .respond _ => commandLength i
  | .write _ _ => commandLength i
  | .overflow _ => headerLength i

/-- The effect carried out. -/
def Effect.apply : Effect → State → State
  | .respond v, s => s.emit32 v
  | .write c v, s => s.writeCtx c v
  | .overflow info, s => s.raise (.lengthOverflow info)

/-- A command consumes its bytes and has its effect, and nothing else. -/
theorem exec_eq (i : Instr) (s : State) :
    exec i s = .next ((effect s.ctx i).apply (s.advance ((effect s.ctx i).taken i))) := by
  cases i with
  | append c data =>
    cases h : lengthSum (s.ctx.get c).bp data.length with
    | none => exact (exec_append_of_overflow s h).trans (by simp only [effect, h]; rfl)
    | some bp => exact (exec_append_of_fits s h).trans (by simp only [effect, h]; rfl)
  | combine c o =>
    cases h : lengthSum (s.ctx.get c).bp (s.ctx.get o).bp.toNat with
    | none => exact (exec_combine_of_overflow s h).trans (by simp only [effect, h]; rfl)
    | some bp => exact (exec_combine_of_fits s h).trans (by simp only [effect, h]; rfl)
  | tread | updb | updf | reset | seed | checksum | cmb => rfl

/-- Everything a step of an engine that accepts commands can have done. -/
theorem step_eq_next_of_running {s t : State} (hr : s.Running) :
    step s = .next t ↔
      (∃ i rest, decode s.stream = .complete i rest ∧ exec i s = .next t) ∨
      (∃ b0, decode s.stream = .illegal b0 ∧ t = (s.advance 1).raise (.illegalCommand b0)) ∨
      (∃ f, decode s.stream = .incomplete ∧ headerFault s = some f ∧ t = (s.advance 5).raise f) ∨
      (decode s.stream = .incomplete ∧ headerFault s = none ∧ t = s.wait) := by
  obtain ⟨hready, hcode⟩ := hr
  have hne : s.status.ready ≠ 0 := by simp [hready]
  rw [step_eq_next]
  constructor
  · rintro (⟨hzero, -⟩ | ⟨-, -, h⟩)
    · exact absurd hzero hne
    · exact h
  · exact fun h => .inr ⟨hready, hcode, h⟩

/-- The next state of a command. -/
theorem eq_of_exec_eq_next {i : Instr} {s t : State} (h : exec i s = .next t) :
    t = (effect s.ctx i).apply (s.advance ((effect s.ctx i).taken i)) := by
  rw [exec_eq] at h
  cases h
  rfl

end Sys2Proof.Machine
end

section
/-! SUPPORT. The invariant at a command boundary, and that every step keeps it. -/

namespace Sys2Proof.Machine

/-- A header fault is due or not by the stream and the contexts alone. -/
theorem headerFault_congr {s t : State} (hs : s.stream = t.stream) (hc : s.ctx = t.ctx) :
    headerFault s = headerFault t := by
  unfold headerFault State.readCtx
  rw [hs, hc]

/-- No header fault is due when there are no bytes. -/
theorem headerFault_of_stream_eq_nil {s : State} (h : s.stream = []) : headerFault s = none := by
  simp [headerFault, h, readHeader]

/-- At a boundary the invariant is a matter of `STATUS` and, before `ready`, of an empty `ROUT`. -/
theorem State.Inv.of_held_eq_nil {s : State} (hh : s.held = []) (hcode : s.status.faultCode ≠ 3)
    (hinfo : s.status.faultCode = 0 → s.status.faultInfo = 0)
    (hready : s.status.ready = 0 → s.status.faultCode = 0 ∧ s.rout = []) : s.Inv where
  code_legal := hcode
  info_clear := hinfo
  not_ready h := ⟨(hready h).1, (hready h).2, hh⟩
  fault_boundary _ := hh
  held_partial h := absurd hh h
  held_no_fault := headerFault_of_stream_eq_nil (by simp [State.stream_def, hh])
  held_counted := by simp [hh]

/-- An engine that accepts commands, at a boundary, meets the invariant when its `fault_info` is 0. -/
theorem State.Inv.of_running {s : State} (hr : s.Running) (hinfo : s.status.faultInfo = 0) (hh : s.held = []) :
    s.Inv := by
  obtain ⟨hready, hcode⟩ := hr
  exact .of_held_eq_nil hh (by simp [hcode]) (fun _ => hinfo) (by simp [hready])

/-- A fault raised behind the bytes consumed, in an engine that is ready, gives the invariant. -/
theorem State.Inv.advance_raise {s : State} (hr : s.status.ready = 1) (n : Nat) (f : Fault) :
    ((s.advance n).raise f).Inv := by
  obtain ⟨hne_zero, hne_three⟩ := faultCodeOf_legal f
  exact .of_held_eq_nil rfl hne_three (fun h => absurd h hne_zero) (by simp [hr])

/-- A command answers a state that meets the invariant. -/
theorem exec_keeps_inv {i : Instr} {s t : State} (hr : s.Running) (hinfo : s.status.faultInfo = 0)
    (h : exec i s = .next t) : t.Inv := by
  rw [eq_of_exec_eq_next h]
  cases effect s.ctx i with
  | respond v => exact .of_running hr hinfo rfl
  | write c v => exact .of_running hr hinfo rfl
  | overflow info => exact .advance_raise hr.1 _ _

/-- A wait holds the beginning of one command that has raised no fault, and counts the bytes it takes. -/
theorem wait_keeps_inv {s : State} (hi : s.Inv) (hr : s.Running) (hs : s.Starved) : s.wait.Inv where
  code_legal := hi.code_legal
  info_clear := hi.info_clear
  not_ready h := by simp [hr.1] at h
  fault_boundary h := absurd hr.2 h
  held_partial _ := hs.1
  held_no_fault := by
    rw [← hs.2]
    exact headerFault_congr (by simp [State.stream_def]) rfl
  held_counted := by
    have := hi.held_counted
    simp [State.stream_def, this]

/-- The completed reset meets the invariant: before it nothing was held and no fault was raised. -/
theorem finishReset_keeps_inv {s : State} (hi : s.Inv) (hready : s.status.ready = 0) : s.finishReset.Inv := by
  obtain ⟨hcode, -, hheld⟩ := hi.not_ready hready
  exact .of_running ⟨rfl, hcode⟩ (hi.info_clear hcode) hheld

/-- Settles O60: the cases of a step, each with its own lemma; a fault is raised at the boundary its bytes leave. -/
theorem everyStepKeepsTheInvariant : Obligations.EveryStepKeepsTheInvariant := by
  intro s t hi h
  rcases step_eq_next.1 h with ⟨hready, -, rfl⟩ | ⟨hready, hcode, hcases⟩
  · exact finishReset_keeps_inv hi hready
  · rcases hcases with ⟨i, rest, -, hexec⟩ | ⟨b0, -, rfl⟩ | ⟨f, -, -, rfl⟩ | ⟨hd, hf, rfl⟩
    · exact exec_keeps_inv ⟨hready, hcode⟩ (hi.info_clear hcode) hexec
    · exact .advance_raise hready 1 _
    · exact .advance_raise hready 5 f
    · exact wait_keeps_inv hi ⟨hready, hcode⟩ ⟨hd, hf⟩

/-- The reset state is an engine that accepts commands, at a boundary. -/
theorem reset_inv : State.reset.Inv := .of_running ⟨rfl, rfl⟩ rfl rfl

/-- What the host writes to `CIN` is not held yet. -/
theorem hostWrite_keeps_inv {s : State} (hi : s.Inv) (b : List Byte) : (s.hostWrite b).Inv where
  code_legal := hi.code_legal
  info_clear := hi.info_clear
  not_ready := hi.not_ready
  fault_boundary := hi.fault_boundary
  held_partial := hi.held_partial
  held_no_fault := hi.held_no_fault
  held_counted := hi.held_counted

/-- A read of `ROUT` leaves an empty `ROUT` empty. -/
theorem hostRead_keeps_inv {s : State} (hi : s.Inv) (n : Nat) : (s.hostRead n).Inv where
  code_legal := hi.code_legal
  info_clear := hi.info_clear
  not_ready h := by
    obtain ⟨hcode, hrout, hheld⟩ := hi.not_ready h
    exact ⟨hcode, by simp [hrout], hheld⟩
  fault_boundary := hi.fault_boundary
  held_partial := hi.held_partial
  held_no_fault := hi.held_no_fault
  held_counted := hi.held_counted

/-- While reset runs nothing is held, no fault is shown and `ROUT` is empty, whatever the state was. -/
theorem assertReset_inv (s : State) : s.assertReset.Inv :=
  .of_held_eq_nil rfl (by simp) (by simp) (by simp)

/-- Settles O59, one lemma per action of the host. -/
theorem resetAndHostActionsMeetTheInvariant : Obligations.ResetAndHostActionsMeetTheInvariant :=
  ⟨reset_inv, fun s hi => ⟨hostWrite_keeps_inv hi, hostRead_keeps_inv hi, assertReset_inv s⟩⟩

end Sys2Proof.Machine
end

section
/-! SUPPORT. What an effect does to the contexts (10_state.md section 2), and the statements about contexts. -/

namespace Sys2Proof.Machine

/-- The contexts an effect leaves. -/
def Effect.contexts : Effect → Contexts → Contexts
  | .write c v, x => x.put c v
  | .respond _, x => x
  | .overflow _, x => x

@[simp] theorem Effect.apply_ctx (e : Effect) (s : State) : (e.apply s).ctx = e.contexts s.ctx := by
  cases e <;> rfl

/-- The contexts after a command. -/
theorem exec_ctx {i : Instr} {s t : State} (h : exec i s = .next t) : t.ctx = (effect s.ctx i).contexts s.ctx := by
  simp [eq_of_exec_eq_next h]

/-- One context after a command. -/
theorem exec_readCtx {i : Instr} {s t : State} (h : exec i s = .next t) (c : CtxId) :
    t.readCtx c = ((effect s.ctx i).contexts s.ctx).get c := by
  rw [State.readCtx, exec_ctx h]

/-- A counted effect that is a write writes the context and the count it was given. -/
theorem Effect.counted_eq_write {i : Instr} {c d : CtxId} {rv : Word} {sum : Option Count} {v : Context}
    (h : Effect.counted i c rv sum = .write d v) : c = d ∧ sum = some v.bp := by
  cases sum with
  | none => cases h
  | some bp => cases h; exact ⟨rfl, rfl⟩

/-- A context a command writes is one of those R24 says it writes, and its count falls by RESET only (R23). -/
theorem effect_eq_write {x : Contexts} {i : Instr} {c : CtxId} {v : Context} (h : effect x i = .write c v) :
    writesCtx c i ∧ (i = .reset c ∨ (x.get c).bp ≤ v.bp) := by
  cases i with
  | tread | updb | updf | checksum | cmb => cases h
  | reset d => cases h; exact ⟨rfl, .inl rfl⟩
  | seed d w => cases h; exact ⟨rfl, .inr (BitVec.le_refl _)⟩
  | append d data =>
    obtain ⟨rfl, hsum⟩ := Effect.counted_eq_write h
    exact ⟨rfl, .inr (BitVec.le_def.2 (by rw [lengthSum_eq_some.1 hsum]; omega))⟩
  | combine d o =>
    obtain ⟨rfl, hsum⟩ := Effect.counted_eq_write h
    exact ⟨rfl, .inr (BitVec.le_def.2 (by rw [lengthSum_eq_some.1 hsum]; omega))⟩

/-- What a command writes it names. -/
theorem namesCtx_of_writesCtx {x : CtxId} {i : Instr} (h : writesCtx x i) : namesCtx x i := by
  cases i with
  | combine c o => exact .inl h
  | tread | updb | updf | reset | seed | append | cmb => exact h
  | checksum c => exact h.elim

/-- An effect keeps every context it is not a write of. -/
theorem Effect.contexts_get_of_ne {e : Effect} {d : CtxId} (h : ∀ c v, e = .write c v → d ≠ c) (x : Contexts) :
    (e.contexts x).get d = x.get d := by
  cases e with
  | respond w => rfl
  | write c v => exact Contexts.get_put_of_ne x (h c v rfl) v
  | overflow info => rfl

/-- Settles O39: a command's effect is a write only of a context it writes. -/
theorem commandsWriteOnlyTheirFirstContext : Obligations.CommandsWriteOnlyTheirFirstContext := by
  intro i x s t hx h
  rw [exec_readCtx h]
  refine Effect.contexts_get_of_ne (fun c v he hxc => hx ?_) _
  exact hxc ▸ (effect_eq_write he).1

/-- The effect of a command is read from the contexts it names (R25). -/
theorem effect_put {i : Instr} {c : CtxId} (h : ¬ namesCtx c i) (x : Contexts) (v : Context) :
    effect (x.put c v) i = effect x i := by
  cases i with
  | tread | updb | updf | reset | cmb => rfl
  | seed d w | append d data | checksum d => simp only [effect, Contexts.get_put_of_ne x (Ne.symm h) v]
  | combine d o =>
    obtain ⟨hd, ho⟩ := not_or.1 h
    simp only [effect, Contexts.get_put_of_ne x (Ne.symm hd) v, Contexts.get_put_of_ne x (Ne.symm ho) v]

/-- An effect and a write of a context it does not write can change places. -/
theorem Effect.apply_writeCtx {e : Effect} {c : CtxId} (h : ∀ d w, e = .write d w → c ≠ d) (v : Context)
    (s : State) : e.apply (s.writeCtx c v) = (e.apply s).writeCtx c v := by
  cases e with
  | respond w => rfl
  | write d w => simp only [Effect.apply, State.writeCtx, Contexts.put_comm _ (h d w rfl)]
  | overflow info => rfl

/-- The effect of a command is no write of a context it does not name. -/
theorem ne_of_effect_eq_write {x : Contexts} {i : Instr} {c : CtxId} (hc : ¬ namesCtx c i) (d : CtxId)
    (v : Context) (h : effect x i = .write d v) : c ≠ d := by
  rintro rfl
  exact hc (namesCtx_of_writesCtx (effect_eq_write h).1)

/-- Settles O38: the effect is not read from the context and changes places with a write of it. -/
theorem commandsTouchOnlyTheContextsTheyName : Obligations.CommandsTouchOnlyTheContextsTheyName := by
  intro i x v s t hx h
  have hne := ne_of_effect_eq_write (x := s.ctx) hx
  constructor
  · rw [exec_eq, eq_of_exec_eq_next h, State.writeCtx_ctx, effect_put hx, ← Effect.apply_writeCtx hne]
    rfl
  · exact commandsWriteOnlyTheirFirstContext i x s t (fun hw => hx (namesCtx_of_writesCtx hw)) h

/-- The effect of a command is the same after a command that names none of its contexts. -/
theorem effect_of_disjoint {i j : Instr} (h : ∀ x, ¬ (namesCtx x i ∧ namesCtx x j)) (x : Contexts) :
    effect ((effect x i).contexts x) j = effect x j := by
  cases he : effect x i with
  | respond w => rfl
  | write c v =>
    have hi := namesCtx_of_writesCtx (effect_eq_write he).1
    exact effect_put (fun hj => h c ⟨hi, hj⟩) x v
  | overflow info => rfl

/-- Effects that write no context in common change places. -/
theorem Effect.contexts_comm {e f : Effect} (h : ∀ c v d w, e = .write c v → f = .write d w → c ≠ d)
    (x : Contexts) : e.contexts (f.contexts x) = f.contexts (e.contexts x) := by
  cases e with
  | respond | overflow => rfl
  | write c v =>
    cases f with
    | respond | overflow => rfl
    | write d w => exact (Contexts.put_comm x (h c v d w rfl rfl) v w).symm

/-- Settles O40: each command has the effect it has in the first state, and the two effects change places. -/
theorem commandsOnDifferentContextsCommute : Obligations.CommandsOnDifferentContextsCommute := by
  intro i j s a b ab ba hdisj ha hab hb hba
  have hdisj' : ∀ x, ¬ (namesCtx x j ∧ namesCtx x i) := fun x h => hdisj x h.symm
  rw [exec_ctx hab, exec_ctx hba, exec_ctx ha, exec_ctx hb, effect_of_disjoint hdisj, effect_of_disjoint hdisj']
  refine Effect.contexts_comm (fun c v d w hj hi => ?_) _
  have hcj := namesCtx_of_writesCtx (effect_eq_write hj).1
  exact ne_of_effect_eq_write (fun hci => hdisj c ⟨hci, hcj⟩) d w hi

/-- A command other than RESET of a context does not lower its count. -/
theorem exec_bp_le {i : Instr} {s t : State} {c : CtxId} (hc : i ≠ .reset c) (h : exec i s = .next t) :
    (s.readCtx c).bp ≤ (t.readCtx c).bp := by
  by_cases hw : ∃ v, effect s.ctx i = .write c v
  · obtain ⟨v, he⟩ := hw
    have hle := (effect_eq_write he).2.resolve_left hc
    rw [exec_readCtx h, he, Effect.contexts, Contexts.get_put_self]
    exact hle
  · have hget : t.readCtx c = s.readCtx c := by
      rw [exec_readCtx h]
      exact Effect.contexts_get_of_ne (fun d v he (hcd : c = d) => hw ⟨v, hcd ▸ he⟩) _
    rw [hget]
    exact BitVec.le_refl _

/-- Settles O41: a step of an engine that accepts commands changes contexts only by a command. -/
theorem bytesProcessedNeverFalls : Obligations.BytesProcessedNeverFalls := by
  intro s t c hr h hreset
  rcases (step_eq_next_of_running hr).1 h with
    ⟨i, rest, hd, hexec⟩ | ⟨b0, -, rfl⟩ | ⟨f, -, -, rfl⟩ | ⟨-, -, rfl⟩
  · exact exec_bp_le (fun hi => hreset rest (hi ▸ hd)) hexec
  · exact BitVec.le_refl _
  · exact BitVec.le_refl _
  · exact BitVec.le_refl _

end Sys2Proof.Machine
end

section
/-! SUPPORT. The two channels (10_state.md section 7): a step neither reads `ROUT` nor looks behind its command in
`CIN`. -/

namespace Sys2Proof

open Machine

/-- A whole header is read the same whatever bytes come later. -/
theorem readHeader_append_of_whole {b : List Byte} {h : Header} {rest : List Byte}
    (hb : readHeader b = .whole h rest) (later : List Byte) : readHeader (b ++ later) = .whole h (rest ++ later) := by
  obtain ⟨hfirst, hlen, rfl⟩ := readHeader_eq_whole.1 hb
  exact readHeader_eq_whole.2 ⟨hfirst, hlen, by simp⟩

/-- A whole command is decoded the same whatever bytes come later. -/
theorem decode_append_of_complete {b : List Byte} {i : Instr} {rest : List Byte} (hb : decode b = .complete i rest)
    (later : List Byte) : decode (b ++ later) = .complete i (rest ++ later) := by
  obtain ⟨h, data, hh, hlen, rfl⟩ := decode_eq_complete.1 hb
  exact decode_eq_complete.2 ⟨h, data, by simpa using readHeader_append_of_whole hh later, hlen, rfl⟩

/-- An illegal first byte is illegal whatever bytes come later. -/
theorem decode_append_of_illegal {b : List Byte} {b0 : Byte} (hb : decode b = .illegal b0) (later : List Byte) :
    decode (b ++ later) = .illegal b0 := by
  obtain ⟨rest, rfl, hfirst⟩ := decode_eq_illegal.1 hb
  exact decode_eq_illegal.2 ⟨rest ++ later, rfl, hfirst⟩

/-- The command a header spells has the header's length before its payload (R72). -/
theorem headerLength_instr {h : Header} (hlen : h.operands.length = operandBytes (opcodeFormat h.op))
    (data : List Byte) : headerLength (h.instr data) = h.length := by
  obtain ⟨op, b0, operands⟩ := h
  simp only [Header.length, hlen]
  cases op <;> rfl

/-- The payload of the command a header spells is the bytes the header announced. -/
theorem payload_instr {h : Header} {data : List Byte} (hlen : data.length = h.payloadLength) :
    payload (h.instr data) = data := by
  obtain ⟨op, b0, operands⟩ := h
  cases op with
  | updb | updf | append => rfl
  | tread | reset | seed | checksum | combine | cmb => exact (List.eq_nil_of_length_eq_zero hlen).symm

/-- The decoder splits the bytes behind the command's length (R75). -/
theorem decode_complete_length {b : List Byte} {i : Instr} {rest : List Byte} (hb : decode b = .complete i rest) :
    ∃ command, command.length = commandLength i ∧ b = command ++ rest := by
  obtain ⟨h, data, hh, hdata, rfl⟩ := decode_eq_complete.1 hb
  obtain ⟨-, hoperands, rfl⟩ := readHeader_eq_whole.1 hh
  refine ⟨h.b0 :: (h.operands ++ data), ?_, by simp⟩
  rw [commandLength, headerLength_instr hoperands, payload_instr hdata, Header.length, List.length_cons,
    List.length_append]
  omega

/-- An APPEND's first byte is determined by its row and its context field (R71). -/
theorem firstByte_append_of_decodeFirst {b0 : Byte} (h : decodeFirst b0 = some .append) (data : List Byte) :
    firstByte (.append (fieldC b0) data) = b0 := by
  have hfields : ∀ b : Byte, b &&& 0xF3 = 0x60 → 0x60 ||| ((b.extractLsb' 2 2).setWidth 8 <<< 2) ||| 0 = b := by
    decide
  simpa [firstByte, firstByteCO, fieldC, opcodeMatch] using hfields b0 (decodeFirst_eq_some h)

end Sys2Proof

namespace Sys2Proof.Machine

/-- The bytes an effect appends to `ROUT`. -/
def Effect.response : Effect → List Byte
  | .respond v => bytes32 v
  | .write _ _ => []
  | .overflow _ => []

/-- A command responds with nothing or with four bytes (R32). -/
theorem Effect.response_length (e : Effect) : e.response.length = 0 ∨ e.response.length = 4 := by
  cases e with
  | respond v => exact .inr rfl
  | write | overflow => exact .inl rfl

/-- An effect appends its response to whatever stands in `ROUT`. -/
theorem Effect.apply_with_rout (e : Effect) (s : State) (r : List Byte) :
    e.apply { s with rout := r } = { e.apply s with rout := r ++ e.response } := by
  cases e with
  | respond v => rfl
  | write | overflow => simp [Effect.apply, Effect.response, State.writeCtx, State.raise]

/-- A step that does the same whatever stands in `ROUT` appends the empty string. -/
theorem step_appends_nil {s t : State} (h : ∀ r, step { s with rout := r } = .next { t with rout := r })
    (r : List Byte) : step { s with rout := r } = .next { t with rout := r ++ [] } := by
  rw [h, List.append_nil]

/-- Settles O55: the string is the response of the command's effect, and empty where no command is executed. -/
theorem responseChannelIsWriteOnly : Obligations.ResponseChannelIsWriteOnly := by
  intro s t h
  rcases step_eq_next.1 h with ⟨hready, hcode, rfl⟩ | ⟨hready, hcode, hcases⟩
  · exact ⟨[], .inl rfl, step_appends_nil fun r => step_eq_next.2 (.inl ⟨hready, hcode, rfl⟩)⟩
  · have running (r : List Byte) {u : State} := step_eq_next_of_running (s := { s with rout := r }) (t := u)
      ⟨hready, hcode⟩
    rcases hcases with ⟨i, rest, hd, hexec⟩ | ⟨b0, hd, rfl⟩ | ⟨f, hd, hf, rfl⟩ | ⟨hd, hf, rfl⟩
    · refine ⟨(effect s.ctx i).response, Effect.response_length _, fun r => ?_⟩
      refine (running r).2 (.inl ⟨i, rest, hd, ?_⟩)
      rw [exec_eq, eq_of_exec_eq_next hexec, ← Effect.apply_with_rout]
      rfl
    · exact ⟨[], .inl rfl, step_appends_nil fun r => (running r).2 (.inr (.inl ⟨b0, hd, rfl⟩))⟩
    · exact ⟨[], .inl rfl, step_appends_nil fun r => (running r).2 (.inr (.inr (.inl ⟨f, hd, hf, rfl⟩)))⟩
    · exact ⟨[], .inl rfl, step_appends_nil fun r => (running r).2 (.inr (.inr (.inr ⟨hd, hf, rfl⟩)))⟩

/-- Bytes written behind those consumed stay behind them. -/
theorem State.hostWrite_advance {s : State} {n : Nat} (h : n ≤ s.stream.length) (b : List Byte) :
    (s.hostWrite b).advance n = (s.advance n).hostWrite b := by
  have hdrop : (s.stream ++ b).drop n = s.stream.drop n ++ b := List.drop_append_of_le_length h
  rw [← State.hostWrite_stream] at hdrop
  simp only [State.advance, hdrop]
  rfl

/-- An effect does not look at `CIN`. -/
theorem Effect.apply_hostWrite (e : Effect) (s : State) (b : List Byte) :
    e.apply (s.hostWrite b) = (e.apply s).hostWrite b := by
  cases e <;> rfl

/-- A command takes no more bytes than it has. -/
theorem Effect.taken_le (e : Effect) (i : Instr) : e.taken i ≤ commandLength i := by
  cases e with
  | respond | write => exact Nat.le_refl _
  | overflow info => exact Nat.le_add_right _ _

/-- A command whose bytes are there executes the same whatever bytes come later. -/
theorem exec_hostWrite {i : Instr} {rest : List Byte} {s t : State} (hd : decode s.stream = .complete i rest)
    (h : exec i s = .next t) (b : List Byte) : exec i (s.hostWrite b) = .next (t.hostWrite b) := by
  obtain ⟨command, hlen, hstream⟩ := decode_complete_length hd
  have hle : (effect s.ctx i).taken i ≤ s.stream.length := by
    calc (effect s.ctx i).taken i ≤ commandLength i := Effect.taken_le _ i
      _ ≤ s.stream.length := by simp [hstream, hlen]
  rw [exec_eq, eq_of_exec_eq_next h, State.hostWrite_ctx, State.hostWrite_advance hle, Effect.apply_hostWrite]

/-- A header fault that is due stays due when bytes are written behind the header. -/
theorem headerFault_hostWrite {s : State} {f : Fault} (hf : headerFault s = some f) (b : List Byte) :
    headerFault (s.hostWrite b) = some f := by
  obtain ⟨h, rest, hh, hop, hover, rfl⟩ := headerFault_eq_some.1 hf
  exact headerFault_eq_some.2 ⟨h, rest ++ b, by simpa using readHeader_append_of_whole hh b, hop, hover, rfl⟩

/-- A whole command whose header fault is due raises that fault: it is an APPEND (R152). -/
theorem exec_of_headerFault {s : State} {f : Fault} {i : Instr} {rest : List Byte} (hf : headerFault s = some f)
    (hd : decode s.stream = .complete i rest) : exec i s = .next ((s.advance 5).raise f) := by
  obtain ⟨h, later, hh, hop, hover, rfl⟩ := headerFault_eq_some.1 hf
  obtain ⟨h', data, hh', hlen, rfl⟩ := decode_eq_complete.1 hd
  obtain ⟨rfl, rfl⟩ : h = h' ∧ later = data ++ rest := by simpa [hh] using hh'
  obtain ⟨hfirst, -, -⟩ := readHeader_eq_whole.1 hh
  rw [hop] at hfirst
  have hi : h.instr data = .append (fieldC h.b0) data := by simp [Header.instr, hop]
  rw [hi, exec_append_of_overflow s (lengthSum_eq_none.2 (hlen ▸ hover)), firstByte_append_of_decodeFirst hfirst]

/-- In an engine that accepts commands, a header fault that is due is what the step raises, whether or not the payload
is there (log entry 8). -/
theorem step_of_headerFault {s : State} {f : Fault} (hr : s.Running) (hf : headerFault s = some f) :
    step s = .next ((s.advance 5).raise f) := by
  refine (step_eq_next_of_running hr).2 ?_
  cases hd : decode s.stream with
  | complete i rest => exact .inl ⟨i, rest, rfl, exec_of_headerFault hf hd⟩
  | incomplete => exact .inr (.inr (.inl ⟨f, rfl, hf, rfl⟩))
  | illegal b0 =>
    obtain ⟨h, rest, hh, -⟩ := headerFault_eq_some.1 hf
    have hillegal := readHeader_eq_illegal.2 (decode_eq_illegal.1 hd)
    rw [hh] at hillegal
    cases hillegal

/-- A header fault is due only when the five header bytes are there. -/
theorem five_le_of_headerFault {s : State} {f : Fault} (hf : headerFault s = some f) : 5 ≤ s.stream.length := by
  obtain ⟨h, rest, hh, hop, -⟩ := headerFault_eq_some.1 hf
  obtain ⟨-, hlen, hstream⟩ := readHeader_eq_whole.1 hh
  have hfour : h.operands.length = 4 := by rw [hlen, hop]; rfl
  simp [hstream, hfour]

/-- Settles O54: what is consumed was there before the write, so the bytes written stay behind it. -/
theorem laterInputDoesNotChangeAStep : Obligations.LaterInputDoesNotChangeAStep := by
  intro s t b hr hstarved h
  have hr' : (s.hostWrite b).Running := hr
  rcases (step_eq_next_of_running hr).1 h with
    ⟨i, rest, hd, hexec⟩ | ⟨b0, hd, rfl⟩ | ⟨f, hd, hf, rfl⟩ | ⟨hd, hf, -⟩
  · refine (step_eq_next_of_running hr').2 (.inl ⟨i, rest ++ b, ?_, exec_hostWrite hd hexec b⟩)
    rw [State.hostWrite_stream, decode_append_of_complete hd]
  · obtain ⟨rest, hstream, -⟩ := decode_eq_illegal.1 hd
    refine (step_eq_next_of_running hr').2 (.inr (.inl ⟨b0, ?_, ?_⟩))
    · rw [State.hostWrite_stream, decode_append_of_illegal hd]
    · rw [State.hostWrite_advance (by simp [hstream])]
      rfl
  · rw [step_of_headerFault hr' (headerFault_hostWrite hf b), State.hostWrite_advance (five_le_of_headerFault hf)]
    rfl
  · exact absurd ⟨hd, hf⟩ hstarved

end Sys2Proof.Machine
end

section
/-! SUPPORT. The status word and the reset values (10_state.md sections 4 and 10). -/

namespace Sys2Proof.Machine

/-- Settles O42: the three fields of the word, from the least significant on. -/
theorem statusWordHasTheFieldsOfTheSpec : Obligations.StatusWordHasTheFieldsOfTheSpec := by
  intro s
  refine ⟨BitVec.extractLsb'_append_eq_right, ?_, ?_⟩
  · exact (BitVec.extractLsb'_append_eq_of_le (by decide)).trans BitVec.extractLsb'_append_eq_right
  · exact (BitVec.extractLsb'_append_eq_of_le (by decide)).trans BitVec.extractLsb'_append_eq_left

/-- Settles O57: the contexts hold what `new()` gives, the other fields are those of the reset state. -/
theorem resetStateHasTheValuesOfTheSpec : Obligations.ResetStateHasTheValuesOfTheSpec := by
  have hctx : ∀ c, State.reset.readCtx c = Context.initial := Contexts.get_initial
  exact ⟨fun c => by rw [hctx c]; exact ⟨rfl, rfl⟩, rfl, rfl, rfl, rfl, rfl, rfl, rfl⟩

end Sys2Proof.Machine
end

section
/-! SUPPORT. Big-endian operands (30_encoding.md R73): a value is its bytes, and the bytes are the value's. -/

namespace Sys2Proof.Machine

/-- Bytes that come in below a value, as a number: every byte moves the value up by a factor of 256, as long as the
value stays in its width. -/
theorem foldl_shiftIn_toNat {w : Nat} (b : List Byte) (v : BitVec w) (h : (v.toNat + 1) * 256 ^ b.length ≤ 2 ^ w) :
    (b.foldl (fun (u : BitVec w) (x : Byte) => (u <<< 8) ||| x.setWidth w) v).toNat =
      b.foldl (fun n x => 256 * n + x.toNat) v.toNat := by
  induction b generalizing v with
  | nil => rfl
  | cons x xs ih =>
    have hx := x.isLt
    have hpow : 1 ≤ 256 ^ xs.length := Nat.one_le_pow _ _ (by decide)
    rw [List.length_cons, pow_succ'] at h
    have hfit : 256 * v.toNat + 256 ≤ 2 ^ w := by nlinarith
    have hstep : ((v <<< 8) ||| x.setWidth w).toNat = 256 * v.toNat + x.toNat := by
      rw [BitVec.toNat_or, BitVec.toNat_shiftLeft, BitVec.toNat_setWidth,
        Nat.mod_eq_of_lt (by omega : x.toNat < 2 ^ w), Nat.shiftLeft_eq, Nat.mod_eq_of_lt (by omega),
        ← Nat.shiftLeft_eq, ← Nat.shiftLeft_add_eq_or_of_lt hx, Nat.shiftLeft_eq, Nat.mul_comm]
    rw [List.foldl_cons, List.foldl_cons, ← hstep]
    refine ih _ ?_
    rw [hstep]
    nlinarith

theorem be32_toNat (b3 b2 b1 b0 : Byte) :
    (be32 [b3, b2, b1, b0]).toNat = 256 * (256 * (256 * b3.toNat + b2.toNat) + b1.toNat) + b0.toNat := by
  rw [be32, foldl_shiftIn_toNat _ _ (by simp)]
  simp

theorem be64_toNat (b7 b6 b5 b4 b3 b2 b1 b0 : Byte) :
    (be64 [b7, b6, b5, b4, b3, b2, b1, b0]).toNat =
      2 ^ 32 * (be32 [b7, b6, b5, b4]).toNat + (be32 [b3, b2, b1, b0]).toNat := by
  rw [be64, foldl_shiftIn_toNat _ _ (by simp), be32_toNat, be32_toNat]
  simp only [List.foldl_cons, List.foldl_nil, BitVec.ofNat_eq_ofNat, BitVec.toNat_ofNat, Nat.zero_mod]
  omega

theorem byteOf_toNat (v : Word) (j : Nat) : (byteOf v j).toNat = v.toNat / 2 ^ (8 * j) % 256 := by
  simp [byteOf, BitVec.extractLsb'_toNat, Nat.shiftRight_eq_div_pow]

@[simp] theorem be32_bytes32 (v : Word) : be32 (bytes32 v) = v := by
  have hv := v.isLt
  apply BitVec.eq_of_toNat_eq
  simp only [bytes32, be32_toNat, byteOf_toNat]
  omega

theorem bytes32_be32 {b : List Byte} (h : b.length = 4) : bytes32 (be32 b) = b := by
  obtain ⟨b3, b2, b1, b0, rfl⟩ := List.length_eq_four.1 h
  simp only [bytes32, List.cons.injEq, and_true, ← BitVec.toNat_inj, byteOf_toNat, be32_toNat]
  omega

/-- A u64 is read as its two halves, the more significant first. -/
theorem be64_append {x y : List Byte} (hx : x.length = 4) (hy : y.length = 4) :
    be64 (x ++ y) = be32 x ++ be32 y := by
  obtain ⟨b7, b6, b5, b4, rfl⟩ := List.length_eq_four.1 hx
  obtain ⟨b3, b2, b1, b0, rfl⟩ := List.length_eq_four.1 hy
  have hlow := (be32 [b3, b2, b1, b0]).isLt
  apply BitVec.eq_of_toNat_eq
  calc (be64 [b7, b6, b5, b4, b3, b2, b1, b0]).toNat
    _ = 2 ^ 32 * (be32 [b7, b6, b5, b4]).toNat + (be32 [b3, b2, b1, b0]).toNat := be64_toNat ..
    _ = (be32 [b7, b6, b5, b4] ++ be32 [b3, b2, b1, b0]).toNat := by
      rw [BitVec.toNat_append, ← Nat.shiftLeft_add_eq_or_of_lt hlow, Nat.shiftLeft_eq, Nat.mul_comm]

@[simp] theorem be64_bytes64 (v : Count) : be64 (bytes64 v) = v := by
  rw [bytes64, be64_append rfl rfl, be32_bytes32, be32_bytes32]
  exact (BitVec.extractLsb'_append_extractLsb'_eq_extractLsb' rfl).trans BitVec.extractLsb'_eq_self

theorem bytes64_be64 {b : List Byte} (h : b.length = 8) : bytes64 (be64 b) = b := by
  have hhigh : (b.take 4).length = 4 := by simp [h]
  have hlow : (b.drop 4).length = 4 := by simp [h]
  calc bytes64 (be64 b)
    _ = bytes64 (be32 (b.take 4) ++ be32 (b.drop 4)) := by rw [← be64_append hhigh hlow, List.take_append_drop]
    _ = bytes32 (be32 (b.take 4)) ++ bytes32 (be32 (b.drop 4)) := by
      rw [bytes64, BitVec.extractLsb'_append_eq_left (a := be32 (b.take 4)),
        BitVec.extractLsb'_append_eq_right (b := be32 (b.drop 4))]
    _ = b := by rw [bytes32_be32 hhigh, bytes32_be32 hlow, List.take_append_drop]

end Sys2Proof.Machine
end

section
/-! SUPPORT. Headers and commands (30_encoding.md R70 to R77): a well-formed command is a header, read by `readHeader`,
and the payload it announces; `headerOf` and `Header.instr` are inverse to each other. -/

namespace Sys2Proof

open Machine

/-- The row of the opcode map a command stands in (R74). -/
def opcodeOf : Instr → Opcode
  | .tread _ _ => .tread
  | .updb _ _ => .updb
  | .updf _ _ => .updf
  | .reset _ => .reset
  | .seed _ _ => .seed
  | .append _ _ => .append
  | .checksum _ => .checksum
  | .combine _ _ => .combine
  | .cmb _ _ _ => .cmb

/-- A command's header: what `encode` puts before the payload. -/
def headerOf (i : Instr) : Header :=
  ⟨opcodeOf i, firstByte i, operandFields i⟩

theorem encode_append (i : Instr) (rest : List Byte) :
    encode i ++ rest = (headerOf i).b0 :: ((headerOf i).operands ++ (payload i ++ rest)) := by
  simp [encode, headerOf]

/-! ### First bytes -/

/-- A first byte selects the row whose `match` it has under the row's mask: no earlier row has it too (R74). -/
theorem decodeFirst_eq_some_iff {b0 : Byte} {op : Opcode} :
    decodeFirst b0 = some op ↔ b0 &&& opcodeMask op = opcodeMatch op := by
  refine ⟨decodeFirst_eq_some, ?_⟩
  revert b0
  cases op <;> decide

/-- The first byte of a row with one context field has the row's `match` under the row's mask, and the field (R71). -/
theorem firstByteCO_one {op : Opcode} (hmask : opcodeMask op = 0xF3) (c : CtxId) :
    firstByteCO op (ctxIndex c) 0 &&& opcodeMask op = opcodeMatch op ∧ fieldC (firstByteCO op (ctxIndex c) 0) = c := by
  revert hmask
  cases op <;> cases c <;> decide

theorem firstByteCO_combine (c o : CtxId) :
    firstByteCO .combine (ctxIndex c) (ctxIndex o) &&& 0xF0 = 0x80 ∧
      fieldC (firstByteCO .combine (ctxIndex c) (ctxIndex o)) = c ∧
      fieldO (firstByteCO .combine (ctxIndex c) (ctxIndex o)) = o := by
  cases c <;> cases o <;> decide

theorem firstByte_tread (k : BitVec 4) :
    (0x10 ||| k.setWidth 8 : Byte) &&& 0xF0 = 0x10 ∧ fieldK (0x10 ||| k.setWidth 8) = k := by
  revert k
  decide

/-- The row of a command is the row its first byte selects (R74). -/
theorem decodeFirst_firstByte (i : Instr) : decodeFirst (firstByte i) = some (opcodeOf i) := by
  rw [decodeFirst_eq_some_iff]
  cases i with
  | tread k n => exact (firstByte_tread k).1
  | updb | updf | cmb => exact BitVec.and_allOnes
  | reset c | seed c | append c | checksum c => exact (firstByteCO_one rfl c).1
  | combine c o => exact (firstByteCO_combine c o).1

/-- Under each of the three masks a first byte is its row and its fields, and no bit is left over (R71). -/
theorem high_or_fieldK (b0 : Byte) : (b0 &&& 0xF0) ||| (fieldK b0).setWidth 8 = b0 := by
  revert b0
  decide

theorem high_or_fieldC (b0 : Byte) : (b0 &&& 0xF3) ||| ((ctxIndex (fieldC b0)).setWidth 8 <<< 2) ||| 0 = b0 := by
  revert b0
  decide

theorem high_or_fieldC_or_fieldO (b0 : Byte) :
    (b0 &&& 0xF0) ||| ((ctxIndex (fieldC b0)).setWidth 8 <<< 2) ||| (ctxIndex (fieldO b0)).setWidth 8 = b0 := by
  revert b0
  decide

/-- A legal first byte is the first byte of the command its header spells (R71). -/
theorem firstByte_instr {h : Header} (hfirst : decodeFirst h.b0 = some h.op) (data : List Byte) :
    firstByte (h.instr data) = h.b0 := by
  obtain ⟨op, b0, operands⟩ := h
  have hmatch : b0 &&& opcodeMask op = opcodeMatch op := decodeFirst_eq_some hfirst
  cases op with
  | tread => exact (congrArg (· ||| _) hmatch.symm).trans (high_or_fieldK b0)
  | updb | updf | cmb => exact hmatch.symm.trans BitVec.and_allOnes
  | reset | seed | append | checksum => exact (congrArg (· ||| _ ||| 0) hmatch.symm).trans (high_or_fieldC b0)
  | combine => exact (congrArg (· ||| _ ||| _) hmatch.symm).trans (high_or_fieldC_or_fieldO b0)

/-! ### The length field -/

theorem be32_lengthField {data : List Byte} (h : payloadFits data) :
    (be32 (lengthField data)).toNat = data.length := by
  have hlt : data.length < 2 ^ 32 := of_decide_eq_true h
  rw [lengthField, be32_bytes32, BitVec.toNat_ofNat, Nat.mod_eq_of_lt hlt]

theorem payloadFits_of_length_eq {data : List Byte} {len : Word} (h : data.length = len.toNat) : payloadFits data :=
  decide_eq_true (h ▸ len.isLt)

theorem lengthField_of_length_eq {data b : List Byte} (hb : b.length = 4) (h : data.length = (be32 b).toNat) :
    lengthField data = b := by
  rw [lengthField, h, BitVec.ofNat_toNat, BitVec.setWidth_eq, bytes32_be32 hb]

/-! ### From a command to its header and back -/

theorem operands_headerOf_length (i : Instr) :
    (headerOf i).operands.length = operandBytes (opcodeFormat (headerOf i).op) := by
  cases i <;> rfl

/-- A well-formed command's header announces its payload (R72, R77). -/
theorem payloadLength_headerOf {i : Instr} (hwf : i.wf) : (headerOf i).payloadLength = (payload i).length := by
  cases i with
  | updb | updf | append => exact be32_lengthField hwf
  | tread | reset | seed | checksum | combine | cmb => rfl

/-- A command's header and payload spell the command. -/
theorem instr_headerOf (i : Instr) : (headerOf i).instr (payload i) = i := by
  cases i with
  | tread k n => exact congrArg (Instr.tread · n) (firstByte_tread k).2
  | updb prev data => exact congrArg (Instr.updb · data) (be32_bytes32 prev)
  | updf prev data => exact congrArg (Instr.updf · data) (be32_bytes32 prev)
  | reset c => exact congrArg Instr.reset (firstByteCO_one rfl c).2
  | seed c value => exact congrArg₂ Instr.seed (firstByteCO_one rfl c).2 (be32_bytes32 value)
  | append c data => exact congrArg (Instr.append · data) (firstByteCO_one rfl c).2
  | checksum c => exact congrArg Instr.checksum (firstByteCO_one rfl c).2
  | combine c o =>
    obtain ⟨-, hc, ho⟩ := firstByteCO_combine c o
    exact congrArg₂ Instr.combine hc ho
  | cmb crc1 crc2 len2 =>
    change Instr.cmb (be32 (bytes32 crc1)) (be32 (bytes32 crc2)) (be64 (bytes64 len2)) = _
    rw [be32_bytes32, be32_bytes32, be64_bytes64]

/-- The operand fields of the command a header spells are the header's operand bytes (R72). -/
theorem operandFields_instr {h : Header} {data : List Byte}
    (hlen : h.operands.length = operandBytes (opcodeFormat h.op)) (hdata : data.length = h.payloadLength) :
    operandFields (h.instr data) = h.operands := by
  obtain ⟨op, b0, operands⟩ := h
  cases op with
  | tread =>
    obtain ⟨n, rfl⟩ := List.length_eq_one_iff.1 hlen
    rfl
  | reset | checksum | combine => exact (List.eq_nil_of_length_eq_zero hlen).symm
  | seed => exact bytes32_be32 hlen
  | append => exact lengthField_of_length_eq hlen hdata
  | updb | updf =>
    have hlen : operands.length = 8 := hlen
    change bytes32 (be32 (operands.take 4)) ++ lengthField data = operands
    rw [bytes32_be32 (by simp [hlen]), lengthField_of_length_eq (by simp [hlen]) hdata, List.take_append_drop]
  | cmb =>
    have hlen : operands.length = 16 := hlen
    have hdrop : operands.drop 8 = (operands.drop 4).drop 4 := by simp
    change bytes32 (be32 (operands.take 4)) ++ bytes32 (be32 ((operands.drop 4).take 4)) ++
      bytes64 (be64 (operands.drop 8)) = operands
    rw [bytes32_be32 (by simp [hlen]), bytes32_be32 (by simp [hlen]), bytes64_be64 (by simp [hlen]), List.append_assoc,
      hdrop, List.take_append_drop, List.take_append_drop]

/-- A header with the payload it announces spells a well-formed command. -/
theorem wf_instr {h : Header} {data : List Byte} (hdata : data.length = h.payloadLength) : (h.instr data).wf := by
  obtain ⟨op, b0, operands⟩ := h
  cases op with
  | updb | updf | append => exact payloadFits_of_length_eq hdata
  | tread | reset | seed | checksum | combine | cmb => rfl

/-! ### The round trip -/

/-- Settles O1: the reader finds the command's header, which announces the command's payload. -/
theorem decodeOfEncodeIsTheCommand : Obligations.DecodeOfEncodeIsTheCommand := by
  intro i rest hwf
  have hread : readHeader (encode i ++ rest) = .whole (headerOf i) (payload i ++ rest) :=
    readHeader_eq_whole.2 ⟨decodeFirst_firstByte i, operands_headerOf_length i, encode_append i rest⟩
  exact decode_eq_complete.2
    ⟨headerOf i, payload i, hread, (payloadLength_headerOf hwf).symm, (instr_headerOf i).symm⟩

/-- Settles O2: each part of the encoding is the part of the header and the payload that was read. -/
theorem decodedBytesAreTheEncoding : Obligations.DecodedBytesAreTheEncoding := by
  intro b i rest hb
  obtain ⟨h, data, hread, hdata, rfl⟩ := decode_eq_complete.1 hb
  obtain ⟨hfirst, hlen, rfl⟩ := readHeader_eq_whole.1 hread
  refine ⟨wf_instr hdata, ?_⟩
  rw [encode, firstByte_instr hfirst, operandFields_instr hlen hdata, payload_instr hdata]
  simp

end Sys2Proof
end

section
/-! SUPPORT. The other statements about the encoding: layouts, written-out words, first bytes, and the beginnings of
commands (30_encoding.md R72 to R76). -/

namespace Sys2Proof

open Machine

/-- The first byte of a row with one context field: the other field is 0 (R71). -/
theorem firstByteCO_zero (op : Opcode) (c : BitVec 2) : firstByteCO op c 0 = opcodeMatch op ||| (c.setWidth 8 <<< 2) :=
  BitVec.or_zero

/-- Settles O4: `encode` at each command. -/
theorem encodedCommandsHaveTheLayoutsOfTheSpec : Obligations.EncodedCommandsHaveTheLayoutsOfTheSpec := by
  refine ⟨fun c => ?reset, fun c => ?checksum, fun c o => rfl, fun k n => rfl, fun c v => ?seed, fun c data => ?append,
    fun prev data => rfl, fun prev data => rfl, fun crc1 crc2 len2 => rfl⟩
  case reset => exact congrArg (· :: _) (firstByteCO_zero .reset _)
  case checksum => exact congrArg (· :: _) (firstByteCO_zero .checksum _)
  case seed => exact congrArg (· :: _) (firstByteCO_zero .seed _)
  case append => exact congrArg (· :: _) (firstByteCO_zero .append _)

/-- Settles O5: the decoder run on each word. -/
theorem writtenOutWordsDecode : Obligations.WrittenOutWordsDecode := by
  unfold Obligations.WrittenOutWordsDecode
  decide

/-- Settles O6: each clause looked up for the 256 first bytes. -/
theorem legalFirstBytesAreThe51Listed : Obligations.LegalFirstBytesAreThe51Listed :=
  ⟨by decide, by decide, rfl, by decide, by decide⟩

/-- Too few bytes can be made as many as are needed. -/
theorem exists_append_length_eq {b : List Byte} {n : Nat} (h : b.length < n) :
    ∃ more, more ≠ [] ∧ (b ++ more).length = n := by
  refine ⟨List.replicate (n - b.length) 0, ?_, ?_⟩
  · simp only [ne_eq, List.replicate_eq_nil_iff]
    omega
  · simp only [List.length_append, List.length_replicate]
    omega

/-- The beginning of a header can be completed to a header: every operand byte is legal (R73). -/
theorem exists_append_readHeader_eq_whole {b : List Byte} (h : readHeader b = .incomplete) :
    ∃ more hdr, more ≠ [] ∧ readHeader (b ++ more) = .whole hdr [] := by
  rcases readHeader_eq_incomplete.1 h with rfl | ⟨b0, operands, op, rfl, hfirst, hlt⟩
  · exact ⟨[0x40], ⟨.reset, 0x40, []⟩, by simp, rfl⟩
  · obtain ⟨more, hmore, hlen⟩ := exists_append_length_eq hlt
    exact ⟨more, ⟨op, b0, operands ++ more⟩, hmore, readHeader_eq_whole.2 ⟨hfirst, hlen, by simp⟩⟩

/-- A header can be completed to a command: every payload byte is legal (R73). -/
theorem exists_decode_append_eq_complete {b rest : List Byte} {hdr : Header} (h : readHeader b = .whole hdr rest)
    {more : List Byte} (hlen : (rest ++ more).length = hdr.payloadLength) :
    decode (b ++ more) = .complete (hdr.instr (rest ++ more)) [] :=
  decode_eq_complete.2 ⟨hdr, rest ++ more, by simpa using readHeader_append_of_whole h more, hlen, rfl⟩

/-- Incomplete bytes can be completed to a command. -/
theorem exists_append_decode_eq_complete {b : List Byte} (h : decode b = .incomplete) :
    ∃ more i, more ≠ [] ∧ decode (b ++ more) = .complete i [] := by
  rcases decode_eq_incomplete.1 h with hread | ⟨hdr, rest, hread, hlt⟩
  · obtain ⟨operands, hdr, hne, hwhole⟩ := exists_append_readHeader_eq_whole hread
    have hdata := exists_decode_append_eq_complete hwhole (more := List.replicate hdr.payloadLength 0) (by simp)
    rw [List.append_assoc] at hdata
    exact ⟨_, _, List.append_ne_nil_of_left_ne_nil hne _, hdata⟩
  · obtain ⟨more, hne, hlen⟩ := exists_append_length_eq hlt
    exact ⟨more, _, hne, exists_decode_append_eq_complete hread hlen⟩

/-- Bytes short of a command are incomplete: an illegal byte or a whole command stays what it is when bytes come
behind it. -/
theorem decode_eq_incomplete_of_append {b more : List Byte} {i : Instr} (hmore : more ≠ [])
    (h : decode (b ++ more) = .complete i []) : decode b = .incomplete := by
  cases hb : decode b with
  | incomplete => rfl
  | illegal b0 => simp [decode_append_of_illegal hb] at h
  | complete j rest => simp [decode_append_of_complete hb, hmore] at h

/-- Settles O3: the bytes that complete a command are the rest of its encoding. -/
theorem incompleteBytesAreAProperBeginning : Obligations.IncompleteBytesAreAProperBeginning := by
  intro b
  constructor
  · intro h
    obtain ⟨more, i, hmore, hd⟩ := exists_append_decode_eq_complete h
    obtain ⟨hwf, hbytes⟩ := decodedBytesAreTheEncoding _ _ _ hd
    exact ⟨i, more, hwf, hmore, by simpa using hbytes.symm⟩
  · rintro ⟨i, more, hwf, hmore, hbytes⟩
    have hd : decode (encode i ++ []) = .complete i [] := decodeOfEncodeIsTheCommand i [] hwf
    rw [List.append_nil, hbytes] at hd
    exact decode_eq_incomplete_of_append hmore hd

end Sys2Proof
end

section
/-! SUPPORT. A step and the command it executes (20_memory.md R62; 30_encoding.md R75). -/

namespace Sys2Proof.Machine

/-- Settles O50: every meaning answers a next state, and that is what the step answers. -/
theorem stepRunsTheDecodedCommand : Obligations.StepRunsTheDecodedCommand := by
  intro s i rest hr hd
  rw [exec_eq]
  exact (step_eq_next_of_running hr).2 (.inl ⟨i, rest, hd, exec_eq i s⟩)

/-- A command's encoding has the command's length (R72). -/
theorem encode_length (i : Instr) : (encode i).length = commandLength i := by
  cases i with
  | tread k n => exact Laws.EncodedLength.tread k n
  | updb prev data => exact Laws.EncodedLength.updb prev data
  | updf prev data => exact Laws.EncodedLength.updf prev data
  | reset c => exact Laws.EncodedLength.reset c
  | seed c value => exact Laws.EncodedLength.seed c value
  | append c data => exact Laws.EncodedLength.append c data
  | checksum c => exact Laws.EncodedLength.checksum c
  | combine c o => exact Laws.EncodedLength.combine c o
  | cmb crc1 crc2 len2 => exact Laws.EncodedLength.cmb crc1 crc2 len2

/-- In a state that meets the invariant no more is held than the command that is decoded: what is held is a beginning
whose last byte is missing. -/
theorem held_length_le_commandLength {s : State} {i : Instr} {rest : List Byte} (hi : s.Inv)
    (hd : decode s.stream = .complete i rest) : s.held.length ≤ commandLength i := by
  obtain ⟨hwf, hbytes⟩ := decodedBytesAreTheEncoding _ _ _ hd
  rcases List.append_eq_append_iff.1 hbytes with ⟨missing, hcommand, -⟩ | ⟨later, hheld, -⟩
  · rw [← encode_length, hcommand, List.length_append]
    exact Nat.le_add_right _ _
  · have hne : s.held ≠ [] := by simp [hheld, encode]
    have hcomplete := decodeOfEncodeIsTheCommand i later hwf
    rw [← hheld, hi.held_partial hne] at hcomplete
    cases hcomplete

/-- A command that leaves `STATUS` of an engine without a fault as it was has consumed all its bytes and nothing
else. -/
theorem consumed_of_exec {s t : State} {i : Instr} (hcode : s.status.faultCode = 0) (h : exec i s = .next t)
    (hstatus : t.status = s.status) : Consumed (commandLength i) s t := by
  rw [eq_of_exec_eq_next h] at hstatus ⊢
  cases he : effect s.ctx i with
  | respond v => exact ⟨rfl, rfl, rfl⟩
  | write c v => exact ⟨rfl, rfl, rfl⟩
  | overflow info =>
    have hcode' : faultCodeOf (.lengthOverflow info) = s.status.faultCode := by
      rw [he] at hstatus
      exact congrArg Status.faultCode hstatus
    exact absurd (hcode'.trans hcode) (faultCodeOf_legal _).1

/-- Settles O51: the bytes consumed are the command's, and those among them that were held had left `CIN` before. -/
theorem completedCommandIsConsumedWhole : Obligations.CompletedCommandIsConsumedWhole := by
  intro s t i rest hi hr hd h hstatus
  rw [stepRunsTheDecodedCommand s i rest hr hd] at h
  obtain ⟨hheld, hcin, hpos⟩ := consumed_of_exec hr.2 h hstatus
  obtain ⟨command, hlen, hstream⟩ := decode_complete_length hd
  refine ⟨hheld, ?_, ?_⟩
  · rw [hcin, hstream, ← hlen, List.drop_left]
  · have hle := held_length_le_commandLength hi hd
    have htotal : s.held.length + s.cin.length = commandLength i + rest.length := by
      rw [← hlen, ← List.length_append, ← List.length_append, ← hstream, State.stream_def]
    rw [hpos]
    omega

end Sys2Proof.Machine
end

section
/-! SUPPORT. The one-bit operator and the tables (40_table_generator.md): `M` and its powers are linear, a power up to
the eighth shifts out what is above the low bits, and `T[k]` is a power of `M`. -/

namespace Sys2Proof.Machine

/-- `M` is linear: the shift is, and the constant is folded in by one bit of the word (R100). -/
theorem M_xor (a b : Word) : M (a ^^^ b) = M a ^^^ M b := by
  have hpoly : (if (a ^^^ b).getLsbD 0 then Config.poly else 0) =
      (if a.getLsbD 0 then Config.poly else 0) ^^^ (if b.getLsbD 0 then Config.poly else 0) := by
    rw [BitVec.getLsbD_xor]
    cases a.getLsbD 0 <;> cases b.getLsbD 0 <;> simp
  rw [M, M, M, hpoly, BitVec.ushiftRight_xor_distrib]
  ac_rfl

theorem M_of_even {c : Word} (h : c.getLsbD 0 = false) : M c = c >>> 1 := by
  rw [M, h]
  exact BitVec.xor_zero

theorem Mpow_xor (j : Nat) (a b : Word) : Mpow j (a ^^^ b) = Mpow j a ^^^ Mpow j b := by
  induction j generalizing a b with
  | zero => rfl
  | succ j ih => exact (congrArg (Mpow j) (M_xor a b)).trans (ih (M a) (M b))

theorem Mpow_add (i j : Nat) (c : Word) : Mpow (i + j) c = Mpow i (Mpow j c) := by
  induction j generalizing c with
  | zero => rfl
  | succ j ih => exact ih (M c)

/-- Zero bits that leave the register fold nothing in. -/
theorem Mpow_of_low_zero {j : Nat} {c : Word} (h : ∀ i < j, c.getLsbD i = false) : Mpow j c = c >>> j := by
  induction j generalizing c with
  | zero => simp [Mpow]
  | succ j ih =>
    rw [Mpow, M_of_even (h 0 (by omega)), ih, ← BitVec.shiftRight_add, Nat.add_comm]
    intro i hi
    rw [BitVec.getLsbD_ushiftRight]
    exact h (1 + i) (by omega)

/-- A byte leaves a word in eight shifts. -/
theorem setWidth_byte_ushiftRight (b : Byte) : (b.setWidth 32 : Word) >>> 8 = 0#32 := by
  revert b
  decide

/-- One zero byte pushed through the register: its low byte goes through table 0, the rest moves down (R102, R115). -/
theorem Mpow_eight (c : Word) : Mpow 8 c = (c >>> 8) ^^^ generatedZero (c.setWidth 8) := by
  have hlow : ∀ i < 8, (c ^^^ (c.setWidth 8).setWidth 32).getLsbD i = false := by
    intro i hi
    simp [hi, Nat.lt_trans hi (by decide : 8 < 32)]
  calc Mpow 8 c
    _ = Mpow 8 ((c ^^^ (c.setWidth 8).setWidth 32) ^^^ (c.setWidth 8).setWidth 32) := by
      rw [BitVec.xor_assoc, BitVec.xor_self, BitVec.xor_zero]
    _ = (c ^^^ (c.setWidth 8).setWidth 32) >>> 8 ^^^ generatedZero (c.setWidth 8) := by
      rw [Mpow_xor, Mpow_of_low_zero hlow, generatedZero]
    _ = (c >>> 8) ^^^ generatedZero (c.setWidth 8) := by
      rw [BitVec.ushiftRight_xor_distrib, setWidth_byte_ushiftRight, BitVec.xor_zero]

/-- A later table is table 0 pushed through zero bytes (R103). -/
theorem generated_eq_Mpow (k : Nat) (n : Byte) : generated k n = Mpow (8 * (k + 1)) (n.setWidth 32) := by
  induction k with
  | zero => rfl
  | succ k ih => rw [generated, ← Mpow_eight, ih, ← Mpow_add, Nat.add_comm, ← Nat.mul_succ]

theorem T_eq_Mpow (k : BitVec 4) (n : Byte) : T k n = Mpow (8 * (k.toNat + 1)) (n.setWidth 32) := by
  have hk : (k ++ n).extractLsb' 8 4 = k := BitVec.extractLsb'_append_eq_left
  have hn : (k ++ n).extractLsb' 0 8 = n := BitVec.extractLsb'_append_eq_right
  rw [T, tableIndex, tableStore, hk, hn, generated_eq_Mpow]

/-- Table 0, as the byte step reads it. -/
theorem T_zero (n : Byte) : T 0 n = generatedZero n := T_eq_Mpow 0 n

end Sys2Proof.Machine
end

section
/-! SUPPORT. The update loops (41_bytewise_update.md, 42_bulk_update.md): the byte loop is linear in the raw CRC, one
bulk step is sixteen byte steps (R136), and so the bulk path computes what the byte loop does (R133). -/

namespace Sys2Proof.Machine

/-- One byte step is eight one-bit steps on the raw CRC with the byte folded in (R115). -/
theorem bstep_eq_Mpow (crc : Word) (b : Byte) : bstep crc b = Mpow 8 (crc ^^^ b.setWidth 32) := by
  rw [bstep, Mpow_eight, T_zero, BitVec.ushiftRight_xor_distrib, setWidth_byte_ushiftRight, BitVec.xor_zero,
    BitVec.xor_comm]

theorem bstep_xor (a b : Word) (x : Byte) : bstep (a ^^^ b) x = Mpow 8 a ^^^ bstep b x := by
  rw [bstep_eq_Mpow, bstep_eq_Mpow, BitVec.xor_assoc, Mpow_xor]

@[simp] theorem byteLoop_nil (crc : Word) : byteLoop crc [] = crc := rfl

@[simp] theorem byteLoop_cons (crc : Word) (b : Byte) (d : List Byte) :
    byteLoop crc (b :: d) = byteLoop (bstep crc b) d := rfl

theorem byteLoop_append (crc : Word) (d e : List Byte) : byteLoop crc (d ++ e) = byteLoop (byteLoop crc d) e :=
  List.foldl_append

/-- A difference in the raw CRC goes through the byte loop as through zero bytes. -/
theorem byteLoop_xor (a b : Word) (d : List Byte) :
    byteLoop (a ^^^ b) d = Mpow (8 * d.length) a ^^^ byteLoop b d := by
  induction d generalizing a b with
  | nil => rfl
  | cons x xs ih =>
    rw [byteLoop_cons, bstep_xor, ih, ← Mpow_add, List.length_cons, Nat.mul_succ]
    rfl

/-- Byte `j` of the raw CRC is the low byte after `j` bytes have left it; from lane 4 on it is 0. -/
theorem laneByte_eq (crc : Word) (j : Nat) (g : Byte) :
    laneByte crc j g = ((crc >>> (8 * j)) ^^^ g.setWidth 32).setWidth 8 := by
  have hlane : laneByte crc j g = byteOf crc j ^^^ g := by
    rw [laneByte]
    split
    · exact BitVec.xor_comm _ _
    · next hj =>
      have hzero : byteOf crc j = 0#8 := by
        apply BitVec.eq_of_toNat_eq
        rw [byteOf_toNat, Nat.div_eq_of_lt]
        · rfl
        · exact Nat.lt_of_lt_of_le crc.isLt (Nat.pow_le_pow_right (by decide) (by omega))
      rw [hzero, BitVec.zero_xor]
  rw [hlane, BitVec.setWidth_xor, BitVec.setWidth_setWidth_of_le _ (by decide), BitVec.setWidth_eq]
  rfl

/-- The lanes from `j` on are the byte loop on what is left of the raw CRC after `j` bytes: lane `j` goes through the
byte step and the zero bytes behind it, which together are table `15 - j`. -/
theorem lanesFrom_eq_byteLoop (crc : Word) (j : Nat) (g : List Byte) (h : j + g.length = 16) :
    lanesFrom crc j g = byteLoop (crc >>> (8 * j)) g := by
  induction g generalizing j with
  | nil =>
    obtain rfl : j = 16 := h
    exact (BitVec.ushiftRight_eq_zero (by decide)).symm
  | cons x xs ih =>
    have hj : j + (xs.length + 1) = 16 := h
    have htable : T (BitVec.ofNat 4 (Config.ntab - 1 - j)) (laneByte crc j x) =
        Mpow (8 * xs.length) (T 0 (laneByte crc j x)) := by
      have hindex : (BitVec.ofNat 4 (Config.ntab - 1 - j)).toNat = xs.length := by
        rw [BitVec.toNat_ofNat, Config.ntab]
        omega
      rw [T_eq_Mpow, T_zero, generatedZero, ← Mpow_add, hindex, Nat.mul_succ]
    rw [lanesFrom, htable, ih (j + 1) (by omega), byteLoop_cons, bstep, ← laneByte_eq, byteLoop_xor,
      ← BitVec.shiftRight_add, Nat.mul_succ]

/-- One bulk step is the byte loop on its sixteen bytes (R136). -/
theorem gstep_eq_byteLoop (crc : Word) {g : List Byte} (h : g.length = 16) : gstep crc g = byteLoop crc g := by
  rw [gstep, lanesFrom_eq_byteLoop crc 0 g (by omega), Nat.mul_zero, BitVec.ushiftRight_zero]

theorem groupLoop_eq (n : Nat) (crc : Word) (d : List Byte) (h : 16 * n ≤ d.length) :
    groupLoop n crc d = (byteLoop crc (d.take (16 * n)), d.drop (16 * n)) := by
  induction n generalizing crc d with
  | zero => rfl
  | succ n ih =>
    have hsum : 16 * (n + 1) = 16 + 16 * n := by omega
    have hgroup : (d.take 16).length = 16 := by simp only [List.length_take]; omega
    have hrest : 16 * n ≤ (d.drop 16).length := by simp only [List.length_drop]; omega
    rw [groupLoop, Config.group, gstep_eq_byteLoop crc hgroup, ih _ _ hrest, ← byteLoop_append, List.drop_drop, hsum,
      List.take_add]

theorem blockLoop_eq (n : Nat) (crc : Word) (d : List Byte) (h : 64 * n ≤ d.length) :
    blockLoop n crc d = (byteLoop crc (d.take (64 * n)), d.drop (64 * n)) := by
  induction n generalizing crc d with
  | zero => rfl
  | succ n ih =>
    have hsum : 64 * (n + 1) = 64 + 64 * n := by omega
    have hblock : groupLoop Config.unroll crc d = (byteLoop crc (d.take 64), d.drop 64) :=
      groupLoop_eq 4 crc d (by omega)
    have hrest : 64 * n ≤ (d.drop 64).length := by simp only [List.length_drop]; omega
    rw [blockLoop, hblock]
    dsimp only
    rw [ih _ _ hrest, ← byteLoop_append, List.drop_drop, hsum, List.take_add]

/-- The bulk path computes what the byte-wise path computes (R133). -/
theorem updateFast_eq_updateByte (prev : Word) (d : List Byte) : updateFast prev d = updateByte prev d := by
  have hblocks : 64 * (d.length / Config.block) ≤ d.length := Nat.mul_div_le d.length 64
  rw [updateFast, blockLoop_eq _ _ _ hblocks]
  simp only [updateByte, BitVec.not_not, ← byteLoop_append, List.take_append_drop]

@[simp] theorem updateByte_nil (c : Word) : updateByte c [] = c := BitVec.not_not

theorem updateByte_updateByte (c : Word) (x y : List Byte) :
    updateByte (updateByte c x) y = updateByte c (x ++ y) := by
  simp only [updateByte, BitVec.not_not, byteLoop_append]

@[simp] theorem updateFast_nil (c : Word) : updateFast c [] = c := by
  rw [updateFast_eq_updateByte, updateByte_nil]

theorem updateFast_updateFast (c : Word) (x y : List Byte) :
    updateFast (updateFast c x) y = updateFast c (x ++ y) := by
  simp only [updateFast_eq_updateByte, updateByte_updateByte]

end Sys2Proof.Machine
end

section
/-! SUPPORT. One command in place of several (30_encoding.md R78, R79; 43_accumulator.md R156). -/

namespace Sys2Proof.Machine

/-- Every number below `2^64` is a count. -/
theorem exists_count_toNat_eq {k : Nat} (h : k < 2 ^ 64) : ∃ n : Count, n.toNat = k :=
  ⟨BitVec.ofNatLT k h, BitVec.toNat_ofNatLT ..⟩

/-- Commands executed one after another: the first answers a next state, the others go on from it. -/
theorem runCommands_cons {i : Instr} {is : List Instr} {s t : State} (h : exec i s = .next t) :
    runCommands (i :: is) s = runCommands is t := by
  simp [runCommands, h]

theorem runCommands_two {i j : Instr} {s t u : State} (hi : exec i s = .next t) (hj : exec j t = .next u) :
    runCommands [i, j] s = .next u := by
  rw [runCommands_cons hi, runCommands_cons hj, runCommands]

/-- Settles O36: the reset context holds 0 and counts no bytes, so the APPEND fits and computes what HASH does. -/
theorem oneShotHashEqualsResetAppendChecksum : Obligations.OneShotHashEqualsResetAppendChecksum := by
  refine ⟨fun _ => rfl, fun _ => rfl, updateFast_nil 0, fun c data s hlen => ?_⟩
  obtain ⟨n, hn⟩ := exists_count_toNat_eq hlen
  have hctx : ((s.advance 1).writeCtx c Context.initial).readCtx c = ⟨0, 0⟩ := State.writeCtx_readCtx_self ..
  have hsum : lengthSum (((s.advance 1).writeCtx c Context.initial).readCtx c).bp data.length = some n :=
    lengthSum_eq_some.2 (by simpa [hctx] using hn)
  have hrun := (runCommands_cons (is := [.append c data, .checksum c]) (exec_reset s c)).trans
    (runCommands_two (exec_append_of_fits _ hsum) (exec_checksum _ c))
  refine ⟨_, _, exec_updf s 0 data, hrun, rfl, ?_, rfl⟩
  simp [hctx]

/-- Settles O37: the second APPEND starts from the value and the count the first one wrote. -/
theorem splitDataGivesTheSameResult : Obligations.SplitDataGivesTheSameResult := by
  intro x y s
  refine ⟨fun c hlen => ?_, fun p => updateFast_updateFast p x y⟩
  rw [List.length_append, ← Nat.add_assoc] at hlen
  obtain ⟨n, hn⟩ := exists_count_toNat_eq (Nat.lt_of_le_of_lt (Nat.le_add_right _ _) hlen)
  obtain ⟨m, hm⟩ := exists_count_toNat_eq hlen
  have hfirst := exec_append_of_fits s (lengthSum_eq_some.2 hn)
  have hsecond := exec_append_of_fits (c := c) (data := y) (bp := m)
    ((s.advance (5 + x.length)).writeCtx c ⟨updateFast (s.readCtx c).rv x, n⟩)
    (lengthSum_eq_some.2 (by rw [State.writeCtx_readCtx_self, hm, hn]))
  have hwhole := exec_append_of_fits (c := c) (data := x ++ y) (bp := m) s
    (lengthSum_eq_some.2 (by rw [hm, List.length_append, Nat.add_assoc]))
  refine ⟨_, _, runCommands_two hfirst hsecond, runCommands_cons hwhole, ?_, rfl, rfl⟩
  simp [updateFast_updateFast]

end Sys2Proof.Machine
end

section
/-! SUPPORT. The table generator and TREAD (40_table_generator.md R100 to R105): the images of the bits under `M`, the
rules of the generator, and a table entry as the XOR of its basis entries. -/

namespace Sys2Proof.Machine

/-- `M` moves every bit but the lowest one place down, as the matrix of MU does (R100). -/
theorem M_two_pow_succ {n : Nat} (h : n + 1 < 32) : M (BitVec.ofNat 32 (2 ^ (n + 1))) = BitVec.ofNat 32 (2 ^ n) := by
  have hlt : 2 ^ (n + 1) < 2 ^ 32 := Nat.pow_lt_pow_right (by decide) h
  have heven : (BitVec.ofNat 32 (2 ^ (n + 1))).getLsbD 0 = false := by
    rw [BitVec.getLsbD_ofNat, Nat.testBit_two_pow_of_ne (Nat.succ_ne_zero n), Bool.and_false]
  apply BitVec.eq_of_toNat_eq
  rw [M_of_even heven, BitVec.toNat_ushiftRight, BitVec.toNat_ofNat, BitVec.toNat_ofNat, Nat.shiftRight_eq_div_pow,
    Nat.mod_eq_of_lt hlt, pow_succ]
  omega

theorem Mpow_succ (j : Nat) (c : Word) : Mpow (j + 1) c = M (Mpow j c) := by
  rw [Nat.add_comm, Mpow_add]
  rfl

theorem Mpow_of_zero (j : Nat) : Mpow j 0 = 0 := by
  rw [Mpow_of_low_zero (by simp)]
  exact BitVec.zero_ushiftRight

/-- Settles O7: the image of bit `n` and the order of the powers are lemmas, the rest is `M`'s definition. -/
theorem oneBitOperatorIsTheLinearShift : Obligations.OneBitOperatorIsTheLinearShift := by
  refine ⟨fun _ => rfl, fun n hpos hlt => ?_, M_xor, rfl, fun _ => rfl, Mpow_succ, by decide, by decide, by decide⟩
  obtain ⟨m, rfl⟩ := Nat.exists_eq_add_of_le' hpos
  exact M_two_pow_succ hlt

/-- The table a number selects is the one the generator fills at that number (R28, R102). -/
theorem T_ofNat {k : Nat} (h : k < 16) (n : Byte) : T (BitVec.ofNat 4 k) n = generated k n := by
  rw [T_eq_Mpow, generated_eq_Mpow, BitVec.toNat_ofNat, Nat.mod_eq_of_lt h]

theorem setWidth_and_low_byte (c : Word) : (c &&& 0xFF).setWidth 8 = (c.setWidth 8 : Byte) := by
  rw [BitVec.setWidth_and]
  exact BitVec.and_allOnes

/-- Settles O8: table 0 by the lemma on table 0, a later table by the generator's own recursion. -/
theorem generatorFillsTheTables : Obligations.GeneratorFillsTheTables := by
  refine ⟨T_zero, fun k n hpos hle => ?_⟩
  obtain ⟨j, rfl⟩ := Nat.exists_eq_add_of_le' hpos
  rw [Nat.add_sub_cancel, T_ofNat (by omega), T_ofNat (by omega), T_zero, setWidth_and_low_byte, generated]

theorem T_of_zero (k : BitVec 4) : T k 0 = 0 := by
  rw [T_eq_Mpow]
  exact Mpow_of_zero _

theorem T_xor (k : BitVec 4) (a b : Byte) : T k (a ^^^ b) = T k a ^^^ T k b := by
  rw [T_eq_Mpow, T_eq_Mpow, T_eq_Mpow, BitVec.setWidth_xor, Mpow_xor]

/-- A byte is the XOR of its bits. -/
theorem byte_eq_foldl_bits (n : Byte) :
    n = (List.range 8).foldl (fun x i => x ^^^ (if n.getLsbD i then BitVec.ofNat 8 (2 ^ i) else 0)) 0 := by
  revert n
  decide

/-- A table goes through an XOR of bits: it is linear and maps 0 to 0. -/
theorem T_xor_ite (k : BitVec 4) (x y : Byte) (p : Bool) :
    T k (x ^^^ (if p then y else 0)) = T k x ^^^ (if p then T k y else 0) := by
  rw [T_xor]
  cases p with
  | true => rfl
  | false => exact congrArg (T k x ^^^ ·) (T_of_zero k)

/-- An entry is the XOR of the basis entries its index selects: the table goes through the XOR of the index's bits
(R103). -/
theorem T_eq_foldl_basis (k : BitVec 4) (n : Byte) :
    T k n = (List.range 8).foldl (fun x i => x ^^^ (if n.getLsbD i then T k (BitVec.ofNat 8 (2 ^ i)) else 0)) 0 := by
  calc T k n
    _ = T k _ := congrArg (T k) (byte_eq_foldl_bits n)
    _ = (List.range 8).foldl (fun x i => x ^^^ (if n.getLsbD i then T k (BitVec.ofNat 8 (2 ^ i)) else 0)) (T k 0) :=
      (List.foldl_hom (T k) fun x i => (T_xor_ite k x _ _).symm).symm
    _ = _ := by rw [T_of_zero]

/-- Settles O9: the tables are powers of `M`, so they are linear, and an entry is what its basis entries give. -/
theorem tablesHaveTheClosedForm : Obligations.TablesHaveTheClosedForm :=
  ⟨T_eq_Mpow, T_of_zero, T_xor, T_eq_foldl_basis⟩

/-- Settles O10: TREAD's next state is the emit behind two consumed bytes; the two examples are evaluated. -/
theorem tableReadEmitsTheWord : Obligations.TableReadEmitsTheWord :=
  ⟨fun k n s => ⟨_, exec_tread s k n, ⟨rfl, rfl, rfl⟩, rfl, rfl, rfl⟩, T_of_zero, by decide, by decide⟩

end Sys2Proof.Machine
end

section
/-! SUPPORT. The byte-wise update (41_bytewise_update.md R115 to R118): the division of `standardCrc32` in its reflected
form, where one bit is one `M`, so that a byte's eight bits are one byte step; and the statements about the update. -/

namespace Sys2Proof.Machine

/-! ### The standard division, reflected -/

/-- One bit of standard CRC-32 on the raw register: the data bit is folded into bit 0, and `M` shifts it out (R100). -/
def shiftInBit (crc : Word) (bit : Bool) : Word :=
  M (crc ^^^ (if bit then 1 else 0))

theorem shiftInBit_eq (crc : Word) (bit : Bool) :
    shiftInBit crc bit = (crc >>> 1) ^^^ (if crc.getLsbD 0 ^^ bit then Config.poly else 0) := by
  cases bit with
  | false => simp [shiftInBit, M]
  | true => simp [shiftInBit, M, BitVec.ushiftRight_xor_distrib]

theorem reverse_xor (a b : Word) : (a ^^^ b).reverse = a.reverse ^^^ b.reverse := by
  ext i hi
  simp [BitVec.getElem_reverse]

theorem reverse_shiftLeft_one (a : Word) : (a <<< 1).reverse = a.reverse >>> 1 := by
  ext i hi
  simp [BitVec.getElem_reverse, BitVec.getLsbD_reverse, Nat.add_comm]

theorem reverse_allOnes (w : Nat) : (BitVec.allOnes w).reverse = BitVec.allOnes w := by
  ext i hi
  have hlt : w - 1 - i < w := by omega
  simp [BitVec.getElem_reverse, BitVec.getMsbD_eq_getLsbD, hi, hlt]

/-- The division of `standardCrc32` read backwards is the shift of the raw register. -/
theorem divideBit_reverse (reg : Word) (bit : Bool) : (divideBit reg bit).reverse = shiftInBit reg.reverse bit := by
  have hgen (p : Bool) : (if p then Config.poly.reverse else 0).reverse = if p then Config.poly else 0 := by
    cases p with
    | false => exact BitVec.reverse_eq_zero_iff.2 rfl
    | true => exact BitVec.reverse_reverse_eq
  have hmsb : reg.reverse.getLsbD 0 = reg.msb := BitVec.getLsbD_reverse
  rw [divideBit, reverse_xor, reverse_shiftLeft_one, hgen, shiftInBit_eq, hmsb]

/-! ### Eight bits are a byte -/

/-- Data XORed into the register and its bit 0 shifted in leave the same register, but for the rest of the data. -/
theorem M_xor_eq_shiftInBit (crc v : Word) : M (crc ^^^ v) = shiftInBit crc (v.getLsbD 0) ^^^ (v >>> 1) := by
  have hv : M v = M (if v.getLsbD 0 then 1 else 0) ^^^ (v >>> 1) := by
    rw [M, BitVec.xor_comm]
    cases v.getLsbD 0 <;> rfl
  rw [shiftInBit, M_xor, M_xor, hv, BitVec.xor_assoc]

/-- Data XORed into the register at once, or bit by bit from the lowest: they differ by the data not yet shifted in. -/
theorem Mpow_xor_eq_foldl_bits (j : Nat) (crc v : Word) :
    Mpow j (crc ^^^ v) = ((List.range j).map (fun i => v.getLsbD i)).foldl shiftInBit crc ^^^ (v >>> j) := by
  induction j with
  | zero => simp [Mpow]
  | succ j ih =>
    rw [Mpow_succ, ih, M_xor_eq_shiftInBit, List.range_succ, List.map_append, List.foldl_append,
      BitVec.getLsbD_ushiftRight, ← BitVec.shiftRight_add]
    rfl

theorem bitsOfByte_eq (b : Byte) : bitsOfByte b = (List.range 8).map (fun i => (b.setWidth 32 : Word).getLsbD i) := by
  refine List.map_congr_left fun i hi => ?_
  have hlt : i < 8 := List.mem_range.1 hi
  rw [BitVec.getLsbD_setWidth, decide_eq_true (Nat.lt_trans hlt (by decide)), Bool.true_and]

/-- One byte step shifts in the eight bits of the byte (R115). -/
theorem bstep_eq_foldl_bits (crc : Word) (b : Byte) : bstep crc b = (bitsOfByte b).foldl shiftInBit crc := by
  rw [bstep_eq_Mpow, Mpow_xor_eq_foldl_bits, setWidth_byte_ushiftRight, BitVec.xor_zero, bitsOfByte_eq]

theorem byteLoop_eq_foldl_bits (crc : Word) (d : List Byte) :
    byteLoop crc d = (d.flatMap bitsOfByte).foldl shiftInBit crc := by
  simp only [byteLoop, List.foldl_flatMap, ← bstep_eq_foldl_bits]

/-- Settles O13: the reversal carries the division, bit by bit, to the shifts that make up the byte loop. -/
theorem byteWiseUpdateIsStandardCrc32 : Obligations.ByteWiseUpdateIsStandardCrc32 := by
  intro d
  have hones : ~~~ (0 : Word) = (0xFFFFFFFF : Word).reverse := (reverse_allOnes 32).symm
  rw [updateByte, byteLoop_eq_foldl_bits, hones, List.foldl_hom _ fun reg bit => (divideBit_reverse reg bit).symm,
    standardCrc32]

/-! ### The byte step and the update -/

/-- Settles O11: the eight bit steps are the lemma on `bstep`, and the index is the low byte of the XOR. -/
theorem byteStepIsEightBitSteps : Obligations.ByteStepIsEightBitSteps := by
  refine fun crc b => ⟨?_, bstep_eq_Mpow crc b, (bstep_eq_Mpow crc 0).trans (congrArg (Mpow 8) BitVec.xor_zero)⟩
  rw [bstep, BitVec.setWidth_xor, BitVec.setWidth_setWidth_of_le _ (by decide), BitVec.setWidth_eq,
    BitVec.setWidth_eq_extractLsb' (by decide)]

/-- Zero bytes leave a raw register of 0 as it is (R118). -/
theorem byteLoop_zero_replicate (n : Nat) : byteLoop 0 (List.replicate n 0) = 0 := by
  induction n with
  | zero => rfl
  | succ n ih =>
    have hstep : bstep 0 0 = 0 := (bstep_eq_Mpow 0 0).trans (Mpow_of_zero 8)
    rw [List.replicate_succ, byteLoop_cons, hstep, ih]

/-- Settles O12: the update is its loop by definition, and the two payloads in two orders are evaluated. -/
theorem byteWiseUpdateChains : Obligations.ByteWiseUpdateChains :=
  ⟨fun _ _ => rfl, updateByte_nil, updateByte_updateByte, ⟨0, [0x61], [0x62], by decide⟩,
    fun n => congrArg (~~~ ·) (byteLoop_zero_replicate n)⟩

/-- Settles O14: UPDB's next state is the emit behind its consumed bytes. -/
theorem byteWiseCommandEmitsTheUpdate : Obligations.ByteWiseCommandEmitsTheUpdate :=
  fun prev data s => ⟨⟨_, exec_updb s prev data, ⟨rfl, rfl, rfl⟩, rfl, rfl, rfl⟩, updateByte_nil prev⟩

end Sys2Proof.Machine
end

section
/-! SUPPORT. The bulk update (42_bulk_update.md R130 to R136): what its loops do with the groups at the front of their
bytes, and the statements about the update. -/

namespace Sys2Proof.Machine

/-! ### Groups and blocks at the front -/

/-- A bulk step takes the sixteen bytes in front (R131). -/
theorem groupLoop_succ_append (n : Nat) (crc : Word) {g : List Byte} (rest : List Byte) (h : g.length = 16) :
    groupLoop (n + 1) crc (g ++ rest) = groupLoop n (gstep crc g) rest := by
  rw [groupLoop, Config.group, List.take_left' h, List.drop_left' h]

/-- A block is four bulk steps over the four groups in front, in order (R131). -/
theorem blockLoop_succ_append (n : Nat) (crc : Word) {g0 g1 g2 g3 : List Byte} (rest : List Byte)
    (h0 : g0.length = 16) (h1 : g1.length = 16) (h2 : g2.length = 16) (h3 : g3.length = 16) :
    blockLoop (n + 1) crc (g0 ++ g1 ++ g2 ++ g3 ++ rest) =
      blockLoop n (gstep (gstep (gstep (gstep crc g0) g1) g2) g3) rest := by
  have hgroups : groupLoop Config.unroll crc (g0 ++ (g1 ++ (g2 ++ (g3 ++ rest)))) =
      (gstep (gstep (gstep (gstep crc g0) g1) g2) g3, rest) := by
    rw [Config.unroll, groupLoop_succ_append _ _ _ h0, groupLoop_succ_append _ _ _ h1, groupLoop_succ_append _ _ _ h2,
      groupLoop_succ_append _ _ _ h3, groupLoop]
  simp only [List.append_assoc]
  rw [blockLoop, hgroups]

/-- The bulk loop leaves the bytes behind the whole blocks (R131). -/
theorem blockLoop_snd (crc : Word) (d : List Byte) :
    (blockLoop (d.length / Config.block) crc d).2 = d.drop (64 * (d.length / 64)) :=
  congrArg Prod.snd (blockLoop_eq _ crc d (Nat.mul_div_le d.length 64))

/-- Below 64 bytes there is no whole block (R131). -/
theorem blockLoop_of_length_lt (crc : Word) {d : List Byte} (h : d.length < 64) :
    blockLoop (d.length / Config.block) crc d = (crc, d) := by
  have hnone : d.length / Config.block = 0 := Nat.div_eq_of_lt h
  rw [hnone, blockLoop]

theorem updateFast_of_length_lt (prev : Word) {d : List Byte} (h : d.length < 64) :
    updateFast prev d = updateByte (~~~ (~~~ prev)) d := by
  rw [updateFast, blockLoop_of_length_lt _ h]

/-- `update_fast` takes the block in front and goes on with the rest (R131). -/
theorem updateFast_block_append (prev : Word) {g0 g1 g2 g3 : List Byte} (rest : List Byte)
    (h0 : g0.length = 16) (h1 : g1.length = 16) (h2 : g2.length = 16) (h3 : g3.length = 16) :
    updateFast prev (g0 ++ g1 ++ g2 ++ g3 ++ rest) =
      updateFast (~~~ gstep (gstep (gstep (gstep (~~~ prev) g0) g1) g2) g3) rest := by
  have hblocks : (g0 ++ g1 ++ g2 ++ g3 ++ rest).length / Config.block = rest.length / Config.block + 1 := by
    simp only [List.length_append, h0, h1, h2, h3, Config.block, Config.group, Config.unroll]
    omega
  rw [updateFast, hblocks, blockLoop_succ_append _ _ _ h0 h1 h2 h3, updateFast, BitVec.not_not]

/-! ### The statements -/

/-- Settles O15: the lanes written out, which is the recursion of `lanesFrom` up to the grouping of the XORs and the 0
behind the last lane. -/
theorem bulkStepReadsSixteenTables : Obligations.BulkStepReadsSixteenTables := by
  intro crc g0 g1 g2 g3 g4 g5 g6 g7 g8 g9 g10 g11 g12 g13 g14 g15
  simp only [BitVec.xor_assoc]
  rw [← BitVec.xor_zero (x := T 0 g15)]
  rfl

/-- Settles O16: one bulk step is the byte loop, which folds `bstep`. -/
theorem bulkStepIsSixteenByteSteps : Obligations.BulkStepIsSixteenByteSteps :=
  fun crc _ h => gstep_eq_byteLoop crc h

/-- Settles O17: what the loop leaves, and what it does with a block in front. -/
theorem bulkPathTakesWholeBlocks : Obligations.BulkPathTakesWholeBlocks := by
  refine ⟨fun _ _ => rfl, fun crc d => ⟨blockLoop_snd crc d, ?_, blockLoop_of_length_lt crc⟩,
    fun n crc _ _ _ _ rest => blockLoop_succ_append n crc rest, fun prev _ => updateFast_of_length_lt prev,
    fun prev _ _ _ _ rest => updateFast_block_append prev rest⟩
  rw [blockLoop_snd, List.length_drop, ← Nat.mod_eq_sub]

/-- Settles O18: the two updates are one function, and it chains; the split and mixed forms are the chaining of
`update_fast` with one name put for the other, and the standard value is that of `update_byte`. -/
theorem bulkPathEqualsByteWisePath : Obligations.BulkPathEqualsByteWisePath := by
  intro c d
  refine ⟨updateFast_eq_updateByte c d, fun k _ => ?_, updateFast_nil c,
    fun e => ⟨updateFast_updateFast c d e, ?_, ?_⟩,
    (updateFast_eq_updateByte 0 d).trans (byteWiseUpdateIsStandardCrc32 d)⟩
  · rw [← updateFast_eq_updateByte _ (d.drop k), updateFast_updateFast, List.take_append_drop]
  · rw [← updateFast_eq_updateByte c d, updateFast_updateFast]
  · rw [← updateFast_eq_updateByte _ e, updateFast_updateFast]

/-- UPDF and UPDB have one outcome: they emit equal values behind equal numbers of bytes (R134). -/
theorem exec_updf_eq_exec_updb (prev : Word) (data : List Byte) (s : State) :
    exec (.updf prev data) s = exec (.updb prev data) s := by
  rw [exec_updf, exec_updb, updateFast_eq_updateByte]

/-- Settles O19: UPDF's next state is the emit behind its consumed bytes. -/
theorem bulkCommandEmitsTheUpdate : Obligations.BulkCommandEmitsTheUpdate :=
  fun prev data s =>
    ⟨⟨_, exec_updf s prev data, ⟨rfl, rfl, rfl⟩, rfl, rfl, rfl⟩, exec_updf_eq_exec_updb prev data s⟩

end Sys2Proof.Machine
end

section
/-! SUPPORT. The GF(2) matrices and `combine_crc` (44_gf2_combine.md): a matrix is a linear map, squaring composes it
with itself, so the two banks hold powers of `M`, and the loop applies the power that the length selects (R185). -/

namespace Sys2Proof.Machine

/-! ### Matrices -/

theorem timesFrom_cons (i : Nat) (row : Word) (rows : Mat) (v : Word) :
    timesFrom i (row :: rows) v = (if v.getLsbD i then row else 0) ^^^ timesFrom (i + 1) rows v := rfl

theorem timesFrom_of_zero (i : Nat) (mat : Mat) : timesFrom i mat 0 = 0 := by
  induction mat generalizing i with
  | nil => rfl
  | cons row rows ih => rw [timesFrom_cons, ih]; simp

theorem timesFrom_xor (i : Nat) (mat : Mat) (a b : Word) :
    timesFrom i mat (a ^^^ b) = timesFrom i mat a ^^^ timesFrom i mat b := by
  induction mat generalizing i with
  | nil => exact BitVec.xor_zero.symm
  | cons row rows ih =>
    have hrow : (if (a ^^^ b).getLsbD i then row else 0) =
        (if a.getLsbD i then row else 0) ^^^ (if b.getLsbD i then row else 0) := by
      rw [BitVec.getLsbD_xor]
      cases a.getLsbD i <;> cases b.getLsbD i <;> simp
    rw [timesFrom_cons, timesFrom_cons, timesFrom_cons, hrow, ih]
    ac_rfl

theorem gf2Times_of_zero (mat : Mat) : gf2Times mat 0 = 0 := timesFrom_of_zero 0 mat

theorem gf2Times_xor (mat : Mat) (a b : Word) : gf2Times mat (a ^^^ b) = gf2Times mat a ^^^ gf2Times mat b :=
  timesFrom_xor 0 mat a b

/-- A matrix goes through the XOR of the rows that a vector selects. -/
theorem timesFrom_map_gf2Times (src : Mat) (i : Nat) (rows : Mat) (v : Word) :
    timesFrom i (rows.map (gf2Times src)) v = gf2Times src (timesFrom i rows v) := by
  induction rows generalizing i with
  | nil => exact (gf2Times_of_zero src).symm
  | cons row rows ih =>
    have hrow : (if v.getLsbD i then gf2Times src row else 0) = gf2Times src (if v.getLsbD i then row else 0) := by
      cases v.getLsbD i with
      | true => rfl
      | false => exact (gf2Times_of_zero src).symm
    rw [List.map_cons, timesFrom_cons, timesFrom_cons, ih, hrow, gf2Times_xor]

/-- The squared matrix applies the matrix twice (R182). -/
theorem gf2Times_gf2Square (src : Mat) (v : Word) : gf2Times (gf2Square src) v = gf2Times src (gf2Times src v) :=
  timesFrom_map_gf2Times src 0 src v

/-- Rows that are the bits from `i` on, each selected by the bit above it. -/
theorem getLsbD_timesFrom_bits (i n : Nat) (v : Word) {k : Nat} (hk : k < 32) :
    (timesFrom (i + 1) ((List.range' i n).map fun j => BitVec.ofNat 32 (2 ^ j)) v).getLsbD k =
      (decide (i ≤ k ∧ k < i + n) && v.getLsbD (k + 1)) := by
  induction n generalizing i with
  | zero =>
    have hempty : ¬ (i ≤ k ∧ k < i + 0) := by omega
    rw [decide_eq_false hempty, Bool.false_and]
    exact BitVec.getLsbD_zero
  | succ n ih =>
    have hrow : (if v.getLsbD (i + 1) then BitVec.ofNat 32 (2 ^ i) else 0).getLsbD k =
        (decide (i = k) && v.getLsbD (i + 1)) := by
      have hbit : (BitVec.ofNat 32 (2 ^ i)).getLsbD k = decide (i = k) := by
        rw [BitVec.getLsbD_ofNat, Nat.testBit_two_pow, decide_eq_true hk, Bool.true_and]
      cases v.getLsbD (i + 1) with
      | true => exact hbit.trans (Bool.and_true _).symm
      | false => exact BitVec.getLsbD_zero.trans (Bool.and_false _).symm
    rw [List.range'_succ, List.map_cons, timesFrom_cons, BitVec.getLsbD_xor, ih, hrow]
    by_cases h : i = k
    · subst h
      simp
    · have hrange : (i + 1 ≤ k ∧ k < i + 1 + n) ↔ (i ≤ k ∧ k < i + (n + 1)) := by omega
      rw [decide_eq_false h, Bool.false_and, Bool.false_xor, decide_eq_decide.2 hrange]

/-- `M1` is the one-bit operator: row 0 folds the polynomial in, the others shift (R183). -/
theorem gf2Times_M1 (v : Word) : gf2Times M1 v = M v := by
  have hrows : M1 = Config.poly :: (List.range' 0 31).map fun j => BitVec.ofNat 32 (2 ^ j) := rfl
  have hshift : timesFrom (0 + 1) ((List.range' 0 31).map fun j => BitVec.ofNat 32 (2 ^ j)) v = v >>> 1 := by
    refine BitVec.eq_of_getLsbD_eq fun k hk => ?_
    rw [getLsbD_timesFrom_bits 0 31 v hk, BitVec.getLsbD_ushiftRight, Nat.add_comm 1 k]
    rcases Nat.lt_or_eq_of_le (Nat.le_of_lt_succ hk) with h | rfl
    · simp [h]
    · simp
  rw [gf2Times, hrows, timesFrom_cons, hshift, M, BitVec.xor_comm]

/-- The matrix stands for `j` zero bits pushed through the raw register (R180). -/
def PushesZeroBits (mat : Mat) (j : Nat) : Prop := ∀ v : Word, gf2Times mat v = Mpow j v

theorem pushesZeroBits_M1 : PushesZeroBits M1 1 := gf2Times_M1

theorem PushesZeroBits.square {mat : Mat} {j : Nat} (h : PushesZeroBits mat j) :
    PushesZeroBits (gf2Square mat) (2 * j) := by
  intro v
  rw [gf2Times_gf2Square, h, h, ← Mpow_add, Nat.two_mul]

/-! ### The loop -/

@[simp] theorem Gf2Unit.applyBit_even (bank : Mat) (u : Gf2Unit) : (u.applyBit bank).even = u.even := by
  unfold Gf2Unit.applyBit
  split <;> rfl

@[simp] theorem Gf2Unit.applyBit_odd (bank : Mat) (u : Gf2Unit) : (u.applyBit bank).odd = u.odd := by
  unfold Gf2Unit.applyBit
  split <;> rfl

theorem Gf2Unit.applyBit_left (bank : Mat) (u : Gf2Unit) : (u.applyBit bank).left.toNat = u.left.toNat / 2 := by
  have hleft : (u.applyBit bank).left = u.left >>> 1 := by
    unfold Gf2Unit.applyBit
    split <;> rfl
  rw [hleft, BitVec.toNat_ushiftRight, Nat.shiftRight_eq_div_pow, pow_one]

theorem Gf2Unit.applyBit_v {bank : Mat} {j : Nat} (h : PushesZeroBits bank j) (u : Gf2Unit) :
    (u.applyBit bank).v = Mpow (j * (u.left.toNat % 2)) u.v := by
  have hbit : u.left.getLsbD 0 = decide (u.left.toNat % 2 = 1) := Nat.testBit_zero ..
  unfold Gf2Unit.applyBit
  rw [hbit]
  rcases Nat.mod_two_eq_zero_or_one u.left.toNat with hmod | hmod
  · simp [hmod, Mpow]
  · simpa [hmod] using h u.v

/-- What `v` becomes when all that is left of the length is applied to it, the next application point having a bank of
`j` zero bits. -/
def Gf2Unit.pending (j : Nat) (u : Gf2Unit) : Word := Mpow (j * u.left.toNat) u.v

/-- An application point keeps what is pending, with the bank squared for the next one. -/
theorem Gf2Unit.applyBit_pending {bank : Mat} {j : Nat} (h : PushesZeroBits bank j) (u : Gf2Unit) :
    (u.applyBit bank).pending (2 * j) = u.pending j := by
  have hsum : 2 * j * (u.left.toNat / 2) + j * (u.left.toNat % 2) = j * u.left.toNat := by
    calc 2 * j * (u.left.toNat / 2) + j * (u.left.toNat % 2)
      _ = j * (2 * (u.left.toNat / 2) + u.left.toNat % 2) := by ring
      _ = j * u.left.toNat := by rw [Nat.div_add_mod]
  rw [Gf2Unit.pending, applyBit_left, applyBit_v h, ← Mpow_add, hsum, Gf2Unit.pending]

theorem Gf2Unit.pending_of_left_eq_zero {u : Gf2Unit} (h : u.left = 0) (j : Nat) : u.pending j = u.v := by
  rw [Gf2Unit.pending, h]
  rfl

/-- The first half squares `ODD` into `EVEN` and applies it. -/
theorem Gf2Unit.evenHalf_pending {u : Gf2Unit} {j : Nat} (h : PushesZeroBits u.odd j) :
    PushesZeroBits u.evenHalf.even (2 * j) ∧ u.evenHalf.pending (2 * (2 * j)) = u.pending (2 * j) ∧
      u.evenHalf.left.toNat = u.left.toNat / 2 := by
  refine ⟨?_, applyBit_pending h.square u.squareEven, applyBit_left _ _⟩
  rw [evenHalf, applyBit_even]
  exact h.square

/-- The second half squares `EVEN` into `ODD` and applies it. -/
theorem Gf2Unit.oddHalf_pending {u : Gf2Unit} {j : Nat} (h : PushesZeroBits u.even j) :
    PushesZeroBits u.oddHalf.odd (2 * j) ∧ u.oddHalf.pending (2 * (2 * j)) = u.pending (2 * j) ∧
      u.oddHalf.left.toNat = u.left.toNat / 2 := by
  refine ⟨?_, applyBit_pending h.square u.squareOdd, applyBit_left _ _⟩
  rw [oddHalf, applyBit_odd]
  exact h.square

/-- The loop answers what is pending when it has passes enough for the length: every pass consumes two bits (R188). -/
theorem Gf2Unit.loop_v {n : Nat} {u : Gf2Unit} {j : Nat} (h : PushesZeroBits u.odd j) (hn : u.left.toNat < 4 ^ n) :
    (Gf2Unit.loop n u).v = u.pending (2 * j) := by
  induction n generalizing u j with
  | zero =>
    have hzero : u.left = 0 := BitVec.eq_of_toNat_eq (by simpa using hn)
    rw [Gf2Unit.loop, pending_of_left_eq_zero hzero]
  | succ n ih =>
    obtain ⟨heven, hepend, heleft⟩ := evenHalf_pending h
    obtain ⟨hodd, hopend, holeft⟩ := oddHalf_pending heven
    rw [Gf2Unit.loop, ← hepend]
    dsimp only
    split
    · next hdone => rw [pending_of_left_eq_zero hdone]
    · rw [← hopend]
      split
      · next hdone => rw [pending_of_left_eq_zero hdone]
      · refine ih hodd ?_
        rw [pow_succ] at hn
        omega

theorem Gf2Unit.run_v (crc1 : Word) (len2 : Count) : (Gf2Unit.run crc1 len2).v = Mpow (8 * len2.toNat) crc1 :=
  Gf2Unit.loop_v (n := 32) (u := Gf2Unit.start crc1 len2) pushesZeroBits_M1.square.square len2.isLt

/-! ### `combine_crc` -/

@[simp] theorem combineCrc_of_length_zero (crc1 crc2 : Word) : combineCrc crc1 crc2 0 = crc1 := if_pos rfl

/-- `combine_crc` pushes `len2` zero bytes through the first checksum (R185). -/
theorem combineCrc_of_ne_zero {len2 : Count} (h : len2 ≠ 0) (crc1 crc2 : Word) :
    combineCrc crc1 crc2 len2 = Mpow (8 * len2.toNat) crc1 ^^^ crc2 := by
  rw [combineCrc, if_neg h, Gf2Unit.run_v]

/-- Zero bytes leave a first checksum of 0 as it is, so the second is the result (R187). -/
theorem combineCrc_zero_left {len2 : Count} (h : len2 ≠ 0) (crc2 : Word) : combineCrc 0 crc2 len2 = crc2 := by
  rw [combineCrc_of_ne_zero h, Mpow_of_zero]
  exact BitVec.zero_xor

/-- What the previous checksum adds to an update goes through the data as through zero bytes. -/
theorem updateFast_eq_Mpow_xor (prev : Word) (d : List Byte) :
    updateFast prev d = Mpow (8 * d.length) prev ^^^ updateFast 0 d := by
  have hprev : ~~~ prev = prev ^^^ ~~~ (0 : Word) := (BitVec.xor_allOnes).symm
  rw [updateFast_eq_updateByte, updateFast_eq_updateByte, updateByte, updateByte, hprev, byteLoop_xor,
    BitVec.not_xor_right]

/-- The combination identity: the second checksum is taken from 0, and its length says how far the first one is pushed
(R186). -/
theorem combineCrc_updateFast (crc1 : Word) {B : List Byte} (h : B.length < 2 ^ 64) :
    combineCrc crc1 (updateFast 0 B) (BitVec.ofNat 64 B.length) = updateFast crc1 B := by
  have hlen : (BitVec.ofNat 64 B.length).toNat = B.length := by rw [BitVec.toNat_ofNat, Nat.mod_eq_of_lt h]
  by_cases hzero : BitVec.ofNat 64 B.length = 0
  · have hnil : B = [] := List.length_eq_zero_iff.1 (by rw [← hlen, hzero]; rfl)
    rw [hzero, combineCrc_of_length_zero, hnil, updateFast_nil]
  · rw [combineCrc_of_ne_zero hzero, hlen, ← updateFast_eq_Mpow_xor]

end Sys2Proof.Machine
end

section
/-! SUPPORT. The accumulator commands (43_accumulator.md R150 to R159): what a command that writes a context leaves
unchanged, and the statements about each command and about streams of them. -/

namespace Sys2Proof.Machine

/-! ### One command -/

/-- The next state of a command that writes a context: the bytes consumed, the context written, all else kept. -/
theorem advance_writeCtx_frame (n : Nat) (c : CtxId) (v : Context) (s : State) :
    Consumed n s ((s.advance n).writeCtx c v) ∧ ContextBecame c v s ((s.advance n).writeCtx c v) :=
  ⟨⟨rfl, rfl, rfl⟩, State.writeCtx_readCtx_self .., fun _ h => State.writeCtx_readCtx_of_ne _ h v, rfl, rfl⟩

/-- Settles O27: RESET writes the initial context behind one byte. -/
theorem resetCommandClearsItsContext : Obligations.ResetCommandClearsItsContext :=
  fun c s => ⟨_, exec_reset s c, advance_writeCtx_frame 1 c ⟨0, 0⟩ s⟩

/-- Settles O28: SEED writes its operand and the count that was there. -/
theorem seedCommandWritesTheRunningValue : Obligations.SeedCommandWritesTheRunningValue :=
  fun c value s => ⟨_, exec_seed s c value, advance_writeCtx_frame 5 c ⟨value, (s.readCtx c).bp⟩ s⟩

/-- Settles O29: where the sum fits it is a count, and APPEND writes it. -/
theorem appendCommandHashesThePayload : Obligations.AppendCommandHashesThePayload := by
  intro c data s hfits
  obtain ⟨bp, hbp⟩ := exists_count_toNat_eq (Nat.lt_of_le_pred (by decide) hfits)
  obtain ⟨hconsumed, hctx⟩ := advance_writeCtx_frame (5 + data.length) c ⟨updateFast (s.readCtx c).rv data, bp⟩ s
  exact ⟨_, bp, exec_append_of_fits s (lengthSum_eq_some.2 hbp), hconsumed, hbp, hctx⟩

/-- Settles O30: CHECKSUM's next state is the emit behind one consumed byte. -/
theorem checksumCommandEmitsTheRunningValue : Obligations.ChecksumCommandEmitsTheRunningValue :=
  fun c s => ⟨_, exec_checksum s c, ⟨rfl, rfl, rfl⟩, rfl, rfl, rfl⟩

/-- Settles O31: where the sum fits it is a count, and COMBINE writes it with both sources read in the old state. -/
theorem combineCommandMergesTheContexts : Obligations.CombineCommandMergesTheContexts := by
  intro c o s hfits
  obtain ⟨bp, hbp⟩ := exists_count_toNat_eq (Nat.lt_of_le_pred (by decide) hfits)
  obtain ⟨hconsumed, hctx⟩ := advance_writeCtx_frame 1 c
    ⟨combineCrc (s.readCtx c).rv (s.readCtx o).rv (s.readCtx o).bp, bp⟩ s
  exact ⟨_, bp, exec_combine_of_fits s (lengthSum_eq_some.2 hbp), hconsumed, hbp, hctx⟩

/-! ### The corner cases of COMBINE -/

/-- A second source that counts no bytes: the context is written with what it holds (R154 (a)). -/
theorem exec_combine_of_bp_zero {c o : CtxId} {s : State} (h : (s.readCtx o).bp = 0) :
    ∃ t, exec (.combine c o) s = .next t ∧ t.ctx = s.ctx := by
  have hsum : lengthSum (s.readCtx c).bp (s.readCtx o).bp.toNat = some (s.readCtx c).bp :=
    lengthSum_eq_some.2 (by simp [h])
  refine ⟨_, exec_combine_of_fits s hsum, ?_⟩
  rw [h, combineCrc_of_length_zero]
  exact Contexts.put_get_self s.ctx c

/-- Into a context in the initial state the second source is copied (R154 (b)). -/
theorem exec_combine_of_initial {c o : CtxId} {s : State} (hc : s.readCtx c = ⟨0, 0⟩) (ho : (s.readCtx o).bp ≠ 0) :
    ∃ t, exec (.combine c o) s = .next t ∧ t.readCtx c = s.readCtx o := by
  have hsum : lengthSum (s.readCtx c).bp (s.readCtx o).bp.toNat = some (s.readCtx o).bp :=
    lengthSum_eq_some.2 (by simp [hc])
  refine ⟨_, exec_combine_of_fits s hsum, ?_⟩
  rw [State.writeCtx_readCtx_self, hc, combineCrc_zero_left ho]

/-- A context combined with itself holds its stream twice (R154 (c)). -/
theorem exec_combine_self {c : CtxId} {s : State} {A : List Byte} (hlen : 2 * A.length < 2 ^ 64)
    (hc : s.readCtx c = ⟨updateFast 0 A, BitVec.ofNat 64 A.length⟩) :
    ∃ t, exec (.combine c c) s = .next t ∧
      t.readCtx c = ⟨updateFast 0 (A ++ A), BitVec.ofNat 64 (2 * A.length)⟩ := by
  have hA : A.length < 2 ^ 64 := by omega
  have hsum : lengthSum (s.readCtx c).bp (s.readCtx c).bp.toNat = some (BitVec.ofNat 64 (2 * A.length)) := by
    rw [lengthSum_eq_some, hc, BitVec.toNat_ofNat, BitVec.toNat_ofNat, Nat.mod_eq_of_lt hlen, Nat.mod_eq_of_lt hA,
      Nat.two_mul]
  refine ⟨_, exec_combine_of_fits s hsum, ?_⟩
  rw [State.writeCtx_readCtx_self, hc, combineCrc_updateFast _ hA, updateFast_updateFast]

/-- Settles O32, one lemma per corner case. -/
theorem combineCommandCornerCases : Obligations.CombineCommandCornerCases :=
  fun _ _ _ => ⟨exec_combine_of_bp_zero, exec_combine_of_initial, fun _ => exec_combine_self⟩

/-! ### Streams of APPENDs -/

/-- Any number of APPENDs whose lengths fit: the value goes on over the concatenation, the count by its length. -/
theorem runCommands_appends (c : CtxId) (xs : List (List Byte)) (s : State)
    (h : (s.readCtx c).bp.toNat + xs.flatten.length < 2 ^ 64) :
    ∃ (t : State) (bp : Count), runCommands (xs.map (.append c)) s = .next t ∧
      t.readCtx c = ⟨updateFast (s.readCtx c).rv xs.flatten, bp⟩ ∧
      bp.toNat = (s.readCtx c).bp.toNat + xs.flatten.length := by
  induction xs generalizing s with
  | nil => exact ⟨s, (s.readCtx c).bp, rfl, by simp, rfl⟩
  | cons x xs ih =>
    rw [List.flatten_cons, List.length_append, ← Nat.add_assoc] at h
    obtain ⟨t, n, hexec, -, hn, ht, -⟩ := appendCommandHashesThePayload c x s (by omega)
    obtain ⟨u, bp, hrun, hu, hbp⟩ := ih t (by rw [ht, hn]; exact h)
    refine ⟨u, bp, (runCommands_cons hexec).trans hrun, ?_, ?_⟩
    · rw [hu, ht, updateFast_updateFast, List.flatten_cons]
    · rw [hbp, ht, hn, List.flatten_cons, List.length_append, Nat.add_assoc]

/-- A count is the word of its number. -/
theorem eq_ofNat_of_toNat_eq {bp : Count} {n : Nat} (h : bp.toNat = n) : bp = BitVec.ofNat 64 n := by
  rw [← h, BitVec.ofNat_toNat, BitVec.setWidth_eq]

/-- Settles O33: RESET and SEED give the APPENDs their start. -/
theorem runningValueIsTheChecksumOfTheAppends : Obligations.RunningValueIsTheChecksumOfTheAppends := by
  intro c v xs s
  constructor
  · intro hlen
    obtain ⟨r, hreset, -, hr, -⟩ := resetCommandClearsItsContext c s
    obtain ⟨t, bp, hrun, ht, hbp⟩ := runCommands_appends c xs r (by simpa [hr] using hlen)
    have hcount : bp.toNat = xs.flatten.length := by simpa [hr] using hbp
    refine ⟨t, (runCommands_cons hreset).trans hrun, ?_, ?_⟩
    · rw [ht, hr, eq_ofNat_of_toNat_eq hcount]
    · exact (updateFast_eq_updateByte 0 _).trans (byteWiseUpdateIsStandardCrc32 _)
  · intro hlen
    obtain ⟨r, hseed, -, hr, -⟩ := seedCommandWritesTheRunningValue c v s
    obtain ⟨t, bp, hrun, ht, hbp⟩ := runCommands_appends c xs r (by rw [hr]; exact hlen)
    rw [hr] at ht hbp
    refine ⟨t, bp, (runCommands_cons hseed).trans hrun, ht, hbp, fun y hv => ?_⟩
    rw [ht, hv, updateFast_updateFast]

/-- Settles O34: each command's next state from its own statement; the seeded APPEND is one update of the whole. -/
theorem seededStreamEqualsOneHash : Obligations.SeededStreamEqualsOneHash := by
  intro c tag data s hlen
  obtain ⟨r, hreset, -, hr, -, hrrout, -⟩ := resetCommandClearsItsContext c s
  obtain ⟨v, hseed, -, hv, -, hvrout, -⟩ := seedCommandWritesTheRunningValue c (updateFast 0 tag) r
  obtain ⟨a, bp, happend, -, hbp, ha, -, harout, -⟩ := appendCommandHashesThePayload c data v (by simp [hv, hr]; omega)
  obtain ⟨t, hchecksum, -, htrout, htctx, -⟩ := checksumCommandEmitsTheRunningValue c a
  obtain ⟨⟨u, hhash, -, hurout, -⟩, -⟩ := bulkCommandEmitsTheUpdate 0 (tag ++ data) s
  have hrun : runCommands [.reset c, .seed c (updateFast 0 tag), .append c data, .checksum c] s = .next t := by
    rw [runCommands_cons hreset, runCommands_cons hseed, runCommands_two happend hchecksum]
  refine ⟨t, u, hrun, runCommands_cons hhash, ?_, hurout, ?_⟩
  · rw [htrout, hurout, ha, hv, updateFast_updateFast, harout, hvrout, hrrout]
  · have hcount : bp.toNat = data.length := by simpa [hv, hr] using hbp
    have hctx : t.readCtx c = a.readCtx c := congrArg (·.get c) htctx
    rw [hctx, ha, eq_ofNat_of_toNat_eq hcount]

/-! ### RESET forgets -/

/-- Of two writes of one context the first is lost, with bytes consumed between them. -/
theorem State.writeCtx_advance_writeCtx (s : State) (n : Nat) (c : CtxId) (x y : Context) :
    ((s.writeCtx c x).advance n).writeCtx c y = (s.advance n).writeCtx c y :=
  congrArg (fun bank => { s.advance n with ctx := bank }) (Contexts.put_put s.ctx c x y)

/-- Settles O35: a write of the context, by whatever came before, is lost under the write that RESET makes. -/
theorem resetForgetsWhatTheContextHeld : Obligations.ResetForgetsWhatTheContextHeld := by
  constructor
  · intro c x s
    rw [exec_reset, exec_reset, State.writeCtx_advance_writeCtx]
  · intro c s
    have honce := exec_reset s c
    have htwice := exec_reset ((s.advance 1).writeCtx c Context.initial) c
    refine ⟨_, _, runCommands_cons honce, runCommands_two honce htwice, ?_, ?_, rfl, rfl⟩
    · exact (State.writeCtx_readCtx_self ..).trans (Contexts.get_initial c).symm
    · exact Contexts.put_put ..

end Sys2Proof.Machine
end

section
/-! SUPPORT. The statements about the GF(2) matrices, `combine_crc` and CMB (44_gf2_combine.md R181 to R188): a matrix
as the rows a vector selects, the rows of `M1`, and the work of the loop, counted as what is done and what is still
due. -/

namespace Sys2Proof.Machine

/-! ### The rows a vector selects -/

theorem timesFrom_append_singleton (i : Nat) (rows : Mat) (row v : Word) :
    timesFrom i (rows ++ [row]) v = timesFrom i rows v ^^^ (if v.getLsbD (i + rows.length) then row else 0) := by
  induction rows generalizing i with
  | nil => exact BitVec.xor_comm _ _
  | cons r rows ih =>
    have hindex : i + 1 + rows.length = i + (rows.length + 1) := by omega
    rw [List.cons_append, timesFrom_cons, ih, hindex, timesFrom_cons, List.length_cons, BitVec.xor_assoc]

/-- One pass of the loop of `gf2_times` (R181). -/
def xorSelectedRow (mat : Mat) (v sum : Word) (i : Nat) : Word :=
  if v.getLsbD i then sum ^^^ mat.getD i 0 else sum

/-- The first `n` passes of the loop of `gf2_times` take the first `n` rows (R181). -/
theorem gf2Times_take_eq_foldl {mat : Mat} {n : Nat} (h : n ≤ mat.length) (v : Word) :
    gf2Times (mat.take n) v = (List.range n).foldl (xorSelectedRow mat v) 0 := by
  induction n with
  | zero => rfl
  | succ n ih =>
    have hlen : (mat.take n).length = n := List.length_take_of_le (Nat.le_of_succ_le h)
    have hrow : mat.getD n 0 = mat[n] := (List.getElem_eq_getD 0).symm
    rw [List.take_succ_eq_append_getElem h, gf2Times, timesFrom_append_singleton, hlen, ← gf2Times,
      ih (Nat.le_of_succ_le h), List.range_succ, List.foldl_append, List.foldl_cons, List.foldl_nil, xorSelectedRow,
      hrow, Nat.zero_add]
    cases v.getLsbD n with
    | true => rfl
    | false => exact BitVec.xor_zero

theorem gf2Times_eq_foldl (mat : Mat) (v : Word) :
    gf2Times mat v = (List.range mat.length).foldl (xorSelectedRow mat v) 0 := by
  rw [← gf2Times_take_eq_foldl (Nat.le_refl _), List.take_length]

theorem getLsbD_two_pow {i : Nat} (h : i < 32) (k : Nat) :
    (BitVec.ofNat 32 (2 ^ i)).getLsbD k = decide (i = k) := by
  rw [BitVec.getLsbD_ofNat, Nat.testBit_two_pow]
  by_cases hik : i = k
  · rw [← hik, decide_eq_true h, Bool.true_and]
  · rw [decide_eq_false hik, Bool.and_false]

/-- Bits that are all 0 from the first row on select no row: the loop may stop early (R181). -/
theorem timesFrom_of_high_zero {i : Nat} {v : Word} (h : ∀ k, i ≤ k → v.getLsbD k = false) (mat : Mat) :
    timesFrom i mat v = 0 := by
  induction mat generalizing i with
  | nil => rfl
  | cons row rows ih =>
    rw [timesFrom_cons, h i (Nat.le_refl i), ih fun k hk => h k (Nat.le_of_succ_le hk)]
    exact BitVec.xor_zero

/-- The vector with one bit set selects the row of that bit. -/
theorem timesFrom_two_pow (i k : Nat) (h : i + k < 32) (mat : Mat) :
    timesFrom i mat (BitVec.ofNat 32 (2 ^ (i + k))) = mat.getD k 0 := by
  induction mat generalizing i k with
  | nil => rfl
  | cons row rows ih =>
    rw [timesFrom_cons, getLsbD_two_pow h]
    cases k with
    | zero =>
      have hhigh : ∀ k, i + 1 ≤ k → (BitVec.ofNat 32 (2 ^ (i + 0))).getLsbD k = false := by
        intro k hk
        rw [getLsbD_two_pow h, decide_eq_false]
        omega
      rw [timesFrom_of_high_zero hhigh, decide_eq_true (Nat.add_zero i)]
      exact BitVec.xor_zero
    | succ k =>
      have hne : ¬ i + (k + 1) = i := by omega
      have hindex : i + (k + 1) = i + 1 + k := by omega
      rw [decide_eq_false hne, hindex, ih (i + 1) k (by omega)]
      exact BitVec.zero_xor

/-- Settles O20: the loop over the rows, linearity, and the row of one bit. -/
theorem matrixTimesVectorXorsTheRows : Obligations.MatrixTimesVectorXorsTheRows := by
  intro mat hlen
  refine ⟨fun v => ?_, gf2Times_xor mat, gf2Times_of_zero mat, fun i hi => ?_⟩
  · rw [gf2Times_eq_foldl, hlen]
    rfl
  · have hrow := timesFrom_two_pow 0 i (by omega) mat
    rwa [Nat.zero_add] at hrow

/-- Settles O21: squaring maps the rows and writes one bank. -/
theorem squaredMatrixAppliesTwice : Obligations.SquaredMatrixAppliesTwice := by
  refine ⟨fun src hlen => ⟨(List.length_map ..).trans hlen, fun n _ => ?_, gf2Times_gf2Square src⟩,
    fun _ => ⟨rfl, rfl, rfl, rfl⟩⟩
  rw [← gf2Times_of_zero src, gf2Square, List.getD_map, gf2Times_of_zero]

/-! ### `M1` -/

/-- A row of `M1` is the image of its bit under `M`, which the matrix stands for (R180, R183). -/
theorem M1_getD {n : Nat} (h : n < 32) : M1.getD n 0 = M (BitVec.ofNat 32 (2 ^ n)) := by
  obtain ⟨-, -, -, hrow⟩ := matrixTimesVectorXorsTheRows M1 rfl
  rw [← hrow n h, gf2Times_M1]

/-- Settles O22: a row above row 0 is a bit moved one place down. -/
theorem oneBitMatrixIsTheOneBitOperator : Obligations.OneBitMatrixIsTheOneBitOperator := by
  refine ⟨rfl, rfl, fun n hpos hle => ?_, gf2Times_M1⟩
  obtain ⟨m, rfl⟩ := Nat.exists_eq_add_of_le' hpos
  have hshift : (1 : Word) <<< m = BitVec.ofNat 32 (2 ^ m) := by
    apply BitVec.eq_of_toNat_eq
    rw [BitVec.toNat_shiftLeft, BitVec.toNat_ofNat]
    exact congrArg (· % 2 ^ 32) (Nat.one_shiftLeft m)
  rw [M1_getD (by omega), M_two_pow_succ (by omega), Nat.add_sub_cancel, hshift]

/-! ### What `combine_crc` computes -/

theorem combineCrc_xor (a b : Word) (len2 : Count) :
    combineCrc (a ^^^ b) 0 len2 = combineCrc a 0 len2 ^^^ combineCrc b 0 len2 := by
  by_cases hlen : len2 = 0
  · rw [hlen, combineCrc_of_length_zero, combineCrc_of_length_zero, combineCrc_of_length_zero]
  · rw [combineCrc_of_ne_zero hlen, combineCrc_of_ne_zero hlen, combineCrc_of_ne_zero hlen, Mpow_xor]
    simp

/-- Settles O23: the power of `M`, the length 0, and linearity are lemmas. -/
theorem combineIsThePowerOfTheOneBitOperator : Obligations.CombineIsThePowerOfTheOneBitOperator :=
  fun crc1 crc2 len2 =>
    ⟨fun h => combineCrc_of_ne_zero h crc1 crc2, combineCrc_of_length_zero crc1 crc2,
      fun crc1' => combineCrc_xor crc1 crc1' len2⟩

/-- Settles O24: combining goes on over `B` from the checksum of `A`, and the update chains. -/
theorem combineOfChecksumsIsTheChecksumOfBoth : Obligations.CombineOfChecksumsIsTheChecksumOfBoth := by
  intro A B hlen
  rw [combineCrc_updateFast _ hlen, updateFast_updateFast]

/-! ### The work of `combine_crc` -/

/-- A number above 0 has one bit more than its half. -/
theorem size_eq_size_half_succ {n : Nat} (h : n ≠ 0) : n.size = (n / 2).size + 1 := by
  have hbit : Nat.bit (n.testBit 0) (n / 2) = n := Nat.bit_testBit_zero_shiftRight_one n
  calc n.size
    _ = (Nat.bit (n.testBit 0) (n / 2)).size := by rw [hbit]
    _ = (n / 2).size + 1 := Nat.size_bit (by rwa [hbit])

theorem size_eq_log2_succ {n : Nat} (h : n ≠ 0) : n.size = n.log2 + 1 :=
  eq_of_forall_lt_iff fun k => by rw [Nat.lt_size, Nat.lt_succ_iff, Nat.le_log2 h]

/-- The set bits of a length are bit 0 and those of the rest. -/
theorem setBits_eq_add_setBits_ushiftRight (n : Count) :
    setBits n = setBits (n >>> 1) + if n.getLsbD 0 then 1 else 0 := by
  have hshift (k : Nat) : (n >>> 1).getLsbD k = n.getLsbD (k + 1) := by
    rw [BitVec.getLsbD_ushiftRight, Nat.add_comm]
  have hlow : setBits n = (List.range 63).countP (fun k => n.getLsbD (k + 1)) + if n.getLsbD 0 then 1 else 0 := by
    rw [setBits, List.range_succ_eq_map, List.countP_cons, List.countP_map]
    rfl
  have hhigh : setBits (n >>> 1) = (List.range 63).countP (fun k => n.getLsbD (k + 1)) := by
    simp [setBits, List.range_succ (n := 63), hshift]
  rw [hlow, hhigh]

/-- The squarings and the applications of a run, those done and those that what is left of the length asks for: a
squaring for each of its bits, an application for each set bit (R188). -/
def Gf2Unit.work (u : Gf2Unit) : Nat × Nat :=
  (u.squarings + u.left.toNat.size, u.applications + setBits u.left)

theorem Gf2Unit.work_of_left_eq_zero {u : Gf2Unit} (h : u.left = 0) : u.work = (u.squarings, u.applications) := by
  rw [Gf2Unit.work, h]
  rfl

theorem Gf2Unit.applyBit_squarings (bank : Mat) (u : Gf2Unit) : (u.applyBit bank).squarings = u.squarings := by
  unfold Gf2Unit.applyBit
  split <;> rfl

theorem Gf2Unit.applyBit_applications (bank : Mat) (u : Gf2Unit) :
    (u.applyBit bank).applications + setBits (u.applyBit bank).left = u.applications + setBits u.left := by
  rw [setBits_eq_add_setBits_ushiftRight u.left, Gf2Unit.applyBit]
  split
  · exact Nat.add_right_comm ..
  · rfl

/-- A squaring and an application point do the work of one bit of the length. -/
theorem Gf2Unit.applyBit_work {u w : Gf2Unit} (bank : Mat) (hleft : w.left = u.left)
    (hsquarings : w.squarings = u.squarings + 1) (happlications : w.applications = u.applications) (h : u.left ≠ 0) :
    (w.applyBit bank).work = u.work := by
  have hne : u.left.toNat ≠ 0 := fun hzero => h (BitVec.eq_of_toNat_eq hzero)
  rw [Gf2Unit.work, applyBit_squarings, applyBit_applications, applyBit_left, hleft, hsquarings, happlications,
    Gf2Unit.work, size_eq_size_half_succ hne, Nat.add_right_comm, Nat.add_assoc]

theorem Gf2Unit.evenHalf_work {u : Gf2Unit} (h : u.left ≠ 0) : u.evenHalf.work = u.work :=
  applyBit_work _ rfl rfl rfl h

theorem Gf2Unit.oddHalf_work {u : Gf2Unit} (h : u.left ≠ 0) : u.oddHalf.work = u.work :=
  applyBit_work _ rfl rfl rfl h

/-- The loop does the work its length asks for, and no more: a half that has consumed the length is the last. -/
theorem Gf2Unit.loop_work {u : Gf2Unit} (n : Nat) (h : u.left ≠ 0) : (Gf2Unit.loop n u).work = u.work := by
  induction n generalizing u with
  | zero => rfl
  | succ n ih =>
    rw [Gf2Unit.loop, ← evenHalf_work h]
    dsimp only
    split
    · rfl
    · next heven =>
      rw [← oddHalf_work heven]
      split
      · rfl
      · next hodd => exact ih hodd

/-- The loop consumes a length that its passes suffice for: every pass consumes two bits (R188). -/
theorem Gf2Unit.loop_left {n : Nat} {u : Gf2Unit} (h : u.left.toNat < 4 ^ n) : (Gf2Unit.loop n u).left = 0 := by
  induction n generalizing u with
  | zero => exact BitVec.eq_of_toNat_eq (Nat.lt_one_iff.1 h)
  | succ n ih =>
    have heven : u.evenHalf.left.toNat = u.left.toNat / 2 := applyBit_left _ _
    have hodd : u.evenHalf.oddHalf.left.toNat = u.evenHalf.left.toNat / 2 := applyBit_left _ _
    rw [Gf2Unit.loop]
    dsimp only
    split
    · next hdone => exact hdone
    · split
      · next hdone => exact hdone
      · refine ih ?_
        rw [pow_succ] at h
        omega

theorem Gf2Unit.run_left (crc1 : Word) (len2 : Count) : (Gf2Unit.run crc1 len2).left = 0 :=
  loop_left (n := 32) (u := Gf2Unit.start crc1 len2) len2.isLt

/-- A run's counters: the two squarings before the loop and the work the length asks for (R188). -/
theorem Gf2Unit.run_counters (crc1 : Word) {len2 : Count} (h : len2 ≠ 0) :
    (Gf2Unit.run crc1 len2).squarings = len2.toNat.size + 2 ∧
      (Gf2Unit.run crc1 len2).applications = setBits len2 := by
  have hwork : (Gf2Unit.run crc1 len2).work = (Gf2Unit.start crc1 len2).work := loop_work 32 h
  rw [work_of_left_eq_zero (run_left crc1 len2)] at hwork
  obtain ⟨hsquarings, happlications⟩ := Prod.mk.inj hwork
  exact ⟨hsquarings.trans (Nat.add_comm ..), happlications.trans (Nat.zero_add _)⟩

/-- Settles O25: the counters of a run, with the number of bits of the length as its highest set bit. -/
theorem combineWorkIsBounded : Obligations.CombineWorkIsBounded := by
  constructor
  · intro crc1 len2 h
    obtain ⟨hsquarings, happlications⟩ := Gf2Unit.run_counters crc1 h
    have hne : len2.toNat ≠ 0 := fun hzero => h (BitVec.eq_of_toNat_eq hzero)
    have hmax : len2.toNat.size ≤ 64 := Nat.size_le.2 len2.isLt
    refine ⟨?_, happlications, Gf2Unit.run_left crc1 len2, ?_, fun hlong => ?_⟩
    · rw [hsquarings, size_eq_log2_succ hne]
    · omega
    · have htop : 63 < len2.toNat.size := Nat.lt_size.2 hlong
      omega
  · intro crc1
    obtain ⟨-, happlications⟩ := Gf2Unit.run_counters crc1 (len2 := 0xFFFFFFFFFFFFFFFF) (by decide)
    rw [happlications]
    decide

/-! ### CMB -/

/-- One zero byte pushed through a byte is table 0's entry (R187). -/
theorem combineCrc_byte_zero_one (n : Byte) : combineCrc (n.setWidth 32) 0 1 = T 0 n := by
  rw [combineCrc_of_ne_zero (by decide), T_zero]
  exact BitVec.xor_zero

/-- Settles O26: CMB's next state is the emit behind its consumed bytes, and each corner case is a lemma. -/
theorem combinationCommandEmitsTheChecksum : Obligations.CombinationCommandEmitsTheChecksum :=
  ⟨fun crc1 crc2 len2 s => ⟨_, exec_cmb s crc1 crc2 len2, ⟨rfl, rfl, rfl⟩, rfl, rfl, rfl⟩,
    combineCrc_of_length_zero, fun crc2 _ h => combineCrc_zero_left h crc2, combineCrc_byte_zero_one⟩

end Sys2Proof.Machine
end

section
/-! SUPPORT. Entering and staying in the fault state (60_exceptions.md section 1): the two causes, and what a step does
when one of them arises. -/

namespace Sys2Proof.Machine

/-! ### The steps that execute no command -/

/-- An illegal first byte is consumed and raised. -/
theorem step_of_illegal {s : State} {b0 : Byte} (hr : s.Running) (hd : decode s.stream = .illegal b0) :
    step s = .next ((s.advance 1).raise (.illegalCommand b0)) :=
  (step_eq_next_of_running hr).2 (.inr (.inl ⟨b0, hd, rfl⟩))

theorem step_of_starved {s : State} (hr : s.Running) (hs : s.Starved) : step s = .next s.wait :=
  (step_eq_next_of_running hr).2 (.inr (.inr (.inr ⟨hs.1, hs.2, rfl⟩)))

/-- In the fault state a step answers the fault the engine is in (R215). -/
theorem step_of_stopped {s : State} {f : Fault} (hcode : s.status.faultCode = faultCodeOf f)
    (hinfo : s.status.faultInfo = faultInfoOf f) : step s = .fault f := by
  have hphase : s.status.phase = .stopped f := phase_eq_stopped.2 ⟨hcode, hinfo⟩
  simp only [step, hphase]

/-! ### The causes -/

/-- The command behind a header is one of the two that count, and its new count does not fit (R213). -/
def Overflows (x : Contexts) (h : Header) : Prop :=
  (h.op = .append ∧ Config.maxCount < (x.get (fieldC h.b0)).bp.toNat + h.payloadLength) ∨
  (h.op = .combine ∧ Config.maxCount < (x.get (fieldC h.b0)).bp.toNat + (x.get (fieldO h.b0)).bp.toNat)

/-- A counted effect is a fault when its sum does not fit, and shows the command's first byte. -/
theorem Effect.counted_eq_overflow {i : Instr} {c : CtxId} {rv : Word} {sum : Option Count} {info : Byte}
    (h : Effect.counted i c rv sum = .overflow info) : info = firstByte i ∧ sum = none := by
  cases sum with
  | none => cases h; exact ⟨rfl, rfl⟩
  | some bp => cases h

/-- A command that raises a fault is an APPEND or a COMBINE whose count does not fit. -/
theorem overflows_of_effect {x : Contexts} {i : Instr} {info : Byte} (hwf : i.wf)
    (h : effect x i = .overflow info) : info = firstByte i ∧ Overflows x (headerOf i) := by
  cases i with
  | tread | updb | updf | reset | seed | checksum | cmb => cases h
  | append c data =>
    obtain ⟨hinfo, hsum⟩ := Effect.counted_eq_overflow h
    have hc : fieldC (firstByte (.append c data)) = c := (firstByteCO_one rfl c).2
    refine ⟨hinfo, .inl ⟨rfl, ?_⟩⟩
    rw [payloadLength_headerOf hwf, headerOf, hc]
    exact lengthSum_eq_none.1 hsum
  | combine c o =>
    obtain ⟨hinfo, hsum⟩ := Effect.counted_eq_overflow h
    obtain ⟨-, hc, ho⟩ := firstByteCO_combine c o
    have hc : fieldC (firstByte (.combine c o)) = c := hc
    have ho : fieldO (firstByte (.combine c o)) = o := ho
    refine ⟨hinfo, .inr ⟨rfl, ?_⟩⟩
    rw [headerOf, hc, ho]
    exact lengthSum_eq_none.1 hsum

/-- The header of a decoded command is the command's. -/
theorem readHeader_of_decode_complete {b : List Byte} {i : Instr} {rest : List Byte}
    (hd : decode b = .complete i rest) : readHeader b = .whole (headerOf i) (payload i ++ rest) := by
  obtain ⟨-, rfl⟩ := decodedBytesAreTheEncoding _ _ _ hd
  exact readHeader_eq_whole.2 ⟨decodeFirst_firstByte i, operands_headerOf_length i, encode_append i rest⟩

/-- A step that answers a state with a fault code found an illegal first byte, or a whole header whose command
overflows. -/
theorem step_enters_fault {s t : State} (h : step s = .next t) (hcode : t.status.faultCode ≠ 0) :
    (∃ b0 rest, s.stream = b0 :: rest ∧ decodeFirst b0 = none ∧ FaultEntered 1 b0 s t) ∨
    (∃ hdr rest, readHeader s.stream = .whole hdr rest ∧ Overflows s.ctx hdr ∧ FaultEntered 2 hdr.b0 s t) := by
  rcases step_eq_next.1 h with ⟨-, hzero, rfl⟩ | ⟨-, hzero, hcases⟩
  · exact absurd hzero hcode
  · rcases hcases with ⟨i, rest, hd, hexec⟩ | ⟨b0, hd, rfl⟩ | ⟨f, -, hf, rfl⟩ | ⟨-, -, rfl⟩
    · obtain ⟨hwf, -⟩ := decodedBytesAreTheEncoding _ _ _ hd
      rw [eq_of_exec_eq_next hexec] at hcode ⊢
      cases he : effect s.ctx i with
      | respond v | write c v => rw [he] at hcode; exact absurd hzero hcode
      | overflow info =>
        obtain ⟨rfl, hover⟩ := overflows_of_effect hwf he
        exact .inr ⟨headerOf i, _, readHeader_of_decode_complete hd, hover, rfl, rfl, rfl⟩
    · obtain ⟨rest, hstream, hfirst⟩ := decode_eq_illegal.1 hd
      exact .inl ⟨b0, rest, hstream, hfirst, rfl, rfl, rfl⟩
    · obtain ⟨hdr, rest, hread, hop, hover, rfl⟩ := headerFault_eq_some.1 hf
      exact .inr ⟨hdr, rest, hread, .inl ⟨hop, hover⟩, rfl, rfl, rfl⟩
    · exact absurd hzero hcode

/-- The illegal first bytes, in the words of R76. -/
theorem decodeFirst_eq_none_iff {b0 : Byte} : decodeFirst b0 = none ↔ IllegalFirst b0 := by
  obtain ⟨-, hnone, -⟩ := legalFirstBytesAreThe51Listed
  exact hnone b0

/-- Settles O47: the cause is read off the header the step found. -/
theorem faultsHaveOnlyTheListedCauses : Obligations.FaultsHaveOnlyTheListedCauses := by
  intro s t h hcode
  rcases step_enters_fault h hcode with
    ⟨b0, rest, hstream, hfirst, hentered⟩ | ⟨hdr, rest, hread, hover, hentered⟩
  · have hone : t.status.faultCode = 1 := congrArg Status.faultCode hentered.1
    rw [hone]
    exact ⟨b0, rest, hstream, hentered, .inl ⟨rfl, decodeFirst_eq_none_iff.1 hfirst⟩⟩
  · have htwo : t.status.faultCode = 2 := congrArg Status.faultCode hentered.1
    obtain ⟨hfirst, -, hstream⟩ := readHeader_eq_whole.1 hread
    rw [htwo]
    refine ⟨hdr.b0, _, hstream, hentered, .inr ?_⟩
    rcases hover with ⟨hop, hsum⟩ | ⟨hop, hsum⟩
    · exact .inl ⟨rfl, hop ▸ hfirst, hdr, rest, hread, hsum⟩
    · exact .inr ⟨rfl, hop ▸ hfirst, hsum⟩

/-! ### Each cause -/

/-- Settles O44: at a boundary the illegal byte is the one byte that leaves `CIN`. -/
theorem illegalFirstByteStopsTheEngine : Obligations.IllegalFirstByteStopsTheEngine := by
  intro s b0 rest hr hheld hcin hillegal
  have hstream : s.stream = b0 :: rest := by rw [State.stream_def, hheld, hcin, List.nil_append]
  have hd : decode s.stream = .illegal b0 :=
    decode_eq_illegal.2 ⟨rest, hstream, decodeFirst_eq_none_iff.2 hillegal⟩
  refine ⟨_, step_of_illegal hr hd, ⟨rfl, rfl, rfl⟩, ?_, rfl, ?_⟩
  · rw [State.raise_cin, State.advance_cin, hstream, List.drop_one, List.tail_cons]
  · rw [State.raise_pos, State.advance_pos, hheld, List.length_nil]

/-- Settles O45: the header fault is due, so the step raises it whatever there is of the payload. -/
theorem appendOverflowStopsBeforeThePayload : Obligations.AppendOverflowStopsBeforeThePayload := by
  intro s c n rest hr _ hstream hover
  have hread : readHeader s.stream = .whole ⟨.append, firstByte (.append c []), responseBytes n⟩ rest :=
    readHeader_eq_whole.2 ⟨decodeFirst_firstByte (.append c []), rfl, hstream⟩
  have hc : fieldC (firstByte (.append c [])) = c := (firstByteCO_one rfl c).2
  have hlen : (be32 (responseBytes n)).toNat = n.toNat := congrArg BitVec.toNat (be32_bytes32 n)
  have hf : headerFault s = some (.lengthOverflow (firstByte (.append c []))) := by
    refine headerFault_eq_some.2 ⟨_, rest, hread, rfl, ?_, rfl⟩
    rw [hc, Header.payloadLength, hlen]
    exact hover
  refine ⟨_, step_of_headerFault hr hf, ⟨rfl, rfl, rfl⟩, ?_, rfl, rfl⟩
  rw [State.raise_cin, State.advance_cin, hstream]
  rfl

/-- Settles O46: the sum of the two counts does not fit. -/
theorem combineOverflowLeavesTheContext : Obligations.CombineOverflowLeavesTheContext := fun s _ _ hover =>
  ⟨_, exec_combine_of_overflow s (lengthSum_eq_none.2 hover), ⟨rfl, rfl, rfl⟩, rfl, rfl, rfl⟩

/-! ### In the fault state, and out of it -/

/-- Settles O48: the host's writes and reads leave `STATUS`, and asserting reset clears it. -/
theorem faultStateIsPermanentUntilReset : Obligations.FaultStateIsPermanentUntilReset := fun _ _ hcode hinfo =>
  ⟨fun _ _ => step_of_stopped hcode hinfo, step_eq_next.2 (.inl ⟨rfl, rfl, rfl⟩)⟩

/-- Settles O49: with `ready` 0 reset completes; with `ready` 1 each answer of the decoder has its next state. -/
theorem engineAlwaysStepsWithoutFault : Obligations.EngineAlwaysStepsWithoutFault := by
  intro s hcode
  rcases flag_cases s.status.ready with hready | hready
  · exact ⟨_, step_eq_next.2 (.inl ⟨hready, hcode, rfl⟩)⟩
  · have hr : s.Running := ⟨hready, hcode⟩
    cases hd : decode s.stream with
    | complete i rest => exact ⟨_, (stepRunsTheDecodedCommand s i rest hr hd).trans (exec_eq i s)⟩
    | illegal b0 => exact ⟨_, step_of_illegal hr hd⟩
    | incomplete =>
      cases hf : headerFault s with
      | some f => exact ⟨_, step_of_headerFault hr hf⟩
      | none => exact ⟨_, step_of_starved hr ⟨hd, hf⟩⟩

end Sys2Proof.Machine
end

section
/-! SUPPORT. Waiting for input (60_exceptions.md section 2) and idling (section 5). -/

namespace Sys2Proof.Machine

/-! ### A wait once made -/

/-- With nothing in `CIN` there is nothing to take. -/
theorem State.wait_of_cin_eq_nil {s : State} (h : s.cin = []) : s.wait = s := by
  obtain ⟨ctx, status, cin, rout, held, pos⟩ := s
  cases h
  simp [State.wait, State.stream_def]

theorem State.Starved.of_stream_eq_nil {s : State} (h : s.stream = []) : s.Starved :=
  ⟨by rw [h]; rfl, headerFault_of_stream_eq_nil h⟩

/-- A wait takes no byte off the stream, so the engine still can only wait. -/
theorem State.Starved.wait {s : State} (hs : s.Starved) : s.wait.Starved :=
  ⟨by rw [State.wait_stream]; exact hs.1, (headerFault_congr s.wait_stream rfl).trans hs.2⟩

/-- Settles O52: after the wait `CIN` is empty, and the next wait takes nothing. -/
theorem waitingHoldsTheBytesTaken : Obligations.WaitingHoldsTheBytesTaken := by
  intro s hr hs
  refine ⟨s.wait, step_of_starved hr hs, rfl, rfl, rfl, rfl, rfl, ?_⟩
  have hr' : s.wait.Running := hr
  rw [step_of_starved hr' hs.wait, State.wait_of_cin_eq_nil rfl]

/-- Settles O56: an idle engine waits on the empty stream, and takes nothing. -/
theorem idleEngineKeepsItsState : Obligations.IdleEngineKeepsItsState := by
  rintro s hready ⟨hcin, hheld, hcode⟩
  have hs : s.Starved := .of_stream_eq_nil (by rw [State.stream_def, hheld, hcin, List.append_nil])
  rw [step_of_starved ⟨hready, hcode⟩ hs, State.wait_of_cin_eq_nil hcin]

/-! ### Bytes written after a wait

A wait moves bytes from `CIN` to `held` and counts them. What is consumed afterwards is no shorter than what was held,
so no byte is held any more and each has been counted once. -/

theorem State.wait_hostWrite_advance {s : State} {n : Nat} (h : s.stream.length ≤ n) (b : List Byte) :
    (s.wait.hostWrite b).advance n = (s.hostWrite b).advance n := by
  have hstream : (s.wait.hostWrite b).stream = (s.hostWrite b).stream := by simp
  have hlen : s.stream.length = s.held.length + s.cin.length := List.length_append
  have hpos : s.pos + s.cin.length + (n - s.stream.length) = s.pos + (n - s.held.length) := by omega
  simp only [State.advance, hstream, State.hostWrite_pos, State.hostWrite_held, State.wait_pos, State.wait_held, hpos]
  rfl

theorem State.wait_hostWrite_wait (s : State) (b : List Byte) :
    (s.wait.hostWrite b).wait = (s.hostWrite b).wait := by
  simp [State.wait, State.hostWrite, State.stream_def, Nat.add_assoc]

/-- A starved stream is no longer than bytes that would have ended the wait. -/
theorem State.Starved.length_le {s : State} (hs : s.Starved) {b taken later : List Byte}
    (hbytes : s.stream ++ b = taken ++ later) (hend : ∀ more, s.stream = taken ++ more → ¬ s.Starved) :
    s.stream.length ≤ taken.length := by
  rcases List.append_eq_append_iff.1 hbytes with ⟨missing, htaken, -⟩ | ⟨more, hstream, -⟩
  · simp [htaken]
  · exact absurd hs (hend more hstream)

/-- What was held of a command is no longer than the command. -/
theorem State.Starved.length_le_of_complete {s : State} (hs : s.Starved) {b : List Byte} {i : Instr}
    {rest : List Byte} (hd : decode (s.stream ++ b) = .complete i rest) : s.stream.length ≤ commandLength i := by
  obtain ⟨hwf, hbytes⟩ := decodedBytesAreTheEncoding _ _ _ hd
  rw [← encode_length]
  refine hs.length_le hbytes fun more hstream hstarved => ?_
  have hcomplete := decodeOfEncodeIsTheCommand i more hwf
  rw [← hstream] at hcomplete
  exact nomatch hstarved.1.symm.trans hcomplete

/-- Nothing is held of an illegal command but its first byte. -/
theorem State.Starved.length_le_of_illegal {s : State} (hs : s.Starved) {b : List Byte} {b0 : Byte}
    (hd : decode (s.stream ++ b) = .illegal b0) : s.stream.length ≤ 1 := by
  obtain ⟨rest, hbytes, hfirst⟩ := decode_eq_illegal.1 hd
  refine hs.length_le (taken := [b0]) hbytes fun more hstream hstarved => ?_
  have hillegal : decode s.stream = .illegal b0 := decode_eq_illegal.2 ⟨more, hstream, hfirst⟩
  exact nomatch hstarved.1.symm.trans hillegal

/-- No more is held of a command whose header raises a fault than the header. -/
theorem State.Starved.length_le_of_headerFault {s : State} (hs : s.Starved) {b : List Byte} {f : Fault}
    (hf : headerFault (s.hostWrite b) = some f) : s.stream.length ≤ 5 := by
  obtain ⟨h, rest, hread, hop, hover, rfl⟩ := headerFault_eq_some.1 hf
  rw [State.hostWrite_stream] at hread
  obtain ⟨hfirst, hoperands, hbytes⟩ := readHeader_eq_whole.1 hread
  have hfive : (h.b0 :: h.operands).length = 5 := by rw [List.length_cons, hoperands, hop]; rfl
  rw [← hfive]
  refine hs.length_le hbytes fun more hstream hstarved => ?_
  have hdue : headerFault s = some (.lengthOverflow h.b0) :=
    headerFault_eq_some.2 ⟨h, more, readHeader_eq_whole.2 ⟨hfirst, hoperands, hstream⟩, hop, hover, rfl⟩
  exact nomatch hstarved.2.symm.trans hdue

/-- Where no header fault is due a command consumes all its bytes: a COMBINE that overflows has no payload. -/
theorem taken_of_no_headerFault {s : State} {i : Instr} {rest : List Byte} (hf : headerFault s = none)
    (hd : decode s.stream = .complete i rest) : (effect s.ctx i).taken i = commandLength i := by
  cases he : effect s.ctx i with
  | respond v | write c v => rfl
  | overflow info =>
    obtain ⟨hwf, -⟩ := decodedBytesAreTheEncoding _ _ _ hd
    obtain ⟨-, ⟨hop, hover⟩ | ⟨hop, -⟩⟩ := overflows_of_effect hwf he
    · have hdue := headerFault_eq_some.2 ⟨_, _, readHeader_of_decode_complete hd, hop, hover, rfl⟩
      exact nomatch hf.symm.trans hdue
    · cases i with
      | combine c o => rfl
      | tread | updb | updf | reset | seed | append | checksum | cmb => cases hop

/-- A command made whole by bytes written after a wait executes as if there had been no wait. -/
theorem exec_wait_hostWrite {s : State} (hs : s.Starved) {b : List Byte} {i : Instr} {rest : List Byte}
    (hf : headerFault (s.hostWrite b) = none) (hd : decode (s.hostWrite b).stream = .complete i rest) :
    exec i (s.wait.hostWrite b) = exec i (s.hostWrite b) := by
  have htaken : (effect s.ctx i).taken i = commandLength i :=
    taken_of_no_headerFault (s := s.hostWrite b) hf hd
  rw [State.hostWrite_stream] at hd
  have hle : s.stream.length ≤ (effect s.ctx i).taken i := htaken ▸ hs.length_le_of_complete hd
  rw [exec_eq, exec_eq, State.hostWrite_ctx, State.hostWrite_ctx, State.wait_ctx, State.wait_hostWrite_advance hle]

/-- Settles O53: both engines read the same stream and the same contexts, and consume at least what was held. -/
theorem splittingTheInputChangesNothing : Obligations.SplittingTheInputChangesNothing := by
  intro s t b hr hs h
  obtain rfl : s.wait = t := by simpa [step_of_starved hr hs] using h
  have hstream : (s.wait.hostWrite b).stream = (s.hostWrite b).stream := by simp
  have hfault : headerFault (s.wait.hostWrite b) = headerFault (s.hostWrite b) := headerFault_congr hstream rfl
  have hrs : (s.hostWrite b).Running := hr
  have hrt : (s.wait.hostWrite b).Running := hr
  cases hf : headerFault (s.hostWrite b) with
  | some f =>
    rw [step_of_headerFault hrt (hfault.trans hf), step_of_headerFault hrs hf,
      State.wait_hostWrite_advance (hs.length_le_of_headerFault hf)]
  | none =>
    cases hd : decode (s.hostWrite b).stream with
    | complete i rest =>
      rw [stepRunsTheDecodedCommand _ i rest hrt (hstream ▸ hd), stepRunsTheDecodedCommand _ i rest hrs hd,
        exec_wait_hostWrite hs hf hd]
    | illegal b0 =>
      have hle : s.stream.length ≤ 1 := hs.length_le_of_illegal (by rwa [State.hostWrite_stream] at hd)
      rw [step_of_illegal hrt (hstream ▸ hd), step_of_illegal hrs hd, State.wait_hostWrite_advance hle]
    | incomplete =>
      rw [step_of_starved hrt ⟨hstream ▸ hd, hfault.trans hf⟩, step_of_starved hrs ⟨hd, hf⟩,
        State.wait_hostWrite_wait]

end Sys2Proof.Machine
end

section
/-! SUPPORT. Reset and responses (70_reset_and_hazards.md): which commands respond (R251), and hardware reset from any
state (R240). -/

namespace Sys2Proof.Machine

/-! ### Which commands respond -/

@[simp] theorem Effect.apply_rout (e : Effect) (s : State) : (e.apply s).rout = s.rout ++ e.response := by
  cases e with
  | respond v => rfl
  | write | overflow => exact (List.append_nil s.rout).symm

/-- `ROUT` after a command: the response of its effect stands at the tail. -/
theorem exec_rout {i : Instr} {s t : State} (h : exec i s = .next t) :
    t.rout = s.rout ++ (effect s.ctx i).response := by
  simp [eq_of_exec_eq_next h]

/-- A command that writes a byte count does not respond, whether the count fits or not. -/
theorem Effect.counted_response (i : Instr) (c : CtxId) (rv : Word) (sum : Option Count) :
    (Effect.counted i c rv sum).response = [] := by
  cases sum <;> rfl

/-- The five commands whose effect is a response are those of R251, whatever the contexts hold. -/
theorem effect_response_length (x : Contexts) (i : Instr) :
    (effect x i).response.length = if responds i then 4 else 0 := by
  cases i with
  | tread | updb | updf | checksum | cmb => rfl
  | reset | seed => rfl
  | append | combine => exact congrArg List.length (Effect.counted_response _ _ _ _)

/-- Settles O43: what is appended is the response of the command's effect. -/
theorem fiveCommandsRespondWithFourBytes : Obligations.FiveCommandsRespondWithFourBytes := fun i s _ h =>
  ⟨(effect s.ctx i).response, exec_rout h, effect_response_length s.ctx i⟩

/-! ### Hardware reset -/

/-- Of the old state asserting reset leaves only the contexts, and completing it overwrites those; the bytes written
meanwhile stay. -/
theorem State.finishReset_hostWrite_assertReset (s : State) (b : List Byte) :
    (s.assertReset.hostWrite b).finishReset = State.reset.hostWrite b := rfl

/-- Settles O58: `ready` is 0 and no fault is shown, so the next step completes the reset. -/
theorem hardwareResetRestoresTheResetState : Obligations.HardwareResetRestoresTheResetState := by
  intro s b
  have hready : (s.assertReset.hostWrite b).status.ready = 0 := by simp
  have hcode : (s.assertReset.hostWrite b).status.faultCode = 0 := by simp
  have hcompletes := (State.finishReset_hostWrite_assertReset s b).symm
  exact ⟨State.assertReset_status s, State.assertReset_cin s, State.assertReset_rout s, State.assertReset_held s,
    step_eq_next.2 (.inl ⟨hready, hcode, hcompletes⟩)⟩

end Sys2Proof.Machine
end
